-- ==== Sys2Proof/Word.lean ====
section
/-! DEFINITION. The word types of the MD4 CORE (spec 00_scope.md R7, R8): all unsigned, all wrapping. -/
namespace Sys2Proof

/-- A 32-bit unsigned word, `W` of R7. `+`, `&&&`, `|||`, `^^^` and `~~~` on it are R9's `+` (modulo
2^32), AND, OR, XOR and NOT. -/
abbrev Word := BitVec 32

/-- A byte, an integer in `[0, 256)` (R8). -/
abbrev Byte := BitVec 8

/-- A command word, `w[15:0]` (R7, R70). -/
abbrev CmdWord := BitVec 16

/-- The sequencer state as one number, `SEQ[9:0]` (R82). -/
abbrev SeqWord := BitVec 10

end Sys2Proof
end

