-- ==== Sys2Proof/Syntax.lean ====
section
/-! DEFINITION. The instructions: every row of spec/opcode_table.json is one constructor of `Instr`. The eight commands
come from the host (spec 30_encoding.md R72); the five micro-operations are decoded from the sequencer (R82). -/
namespace Sys2Proof

/-- `SEQ.ctx` (10_state.md R27): why the current block is compressed. -/
inductive Ctx where
  | upd      -- 0: a block filled by UPDATE
  | fin1     -- 1: the first padded block of FINALIZE
  | fin2     -- 2: the second padded block of FINALIZE
  | unused3  -- 3: "never written"
deriving DecidableEq, Repr

/-- The instruction set. Operands are the fields of the encoding, at the encoding's own width. -/
inductive Instr where
  | nop                                     -- NOP, R101
  | init                                    -- INIT, R102
  | update   (d : Byte)                     -- UPDATE d, R103
  | updateE                                 -- UPDATE.E, R104
  | finalize                                -- FINALIZE, R105
  | rddig    (j : BitVec 4)                 -- RDDIG j, R106
  | rdhex    (j : BitVec 5)                 -- RDHEX j, R107
  | rdstat                                  -- RDSTAT, R108
  | mixF     (ctx : Ctx) (i : BitVec 4)     -- MIX_F, R178: step i of round 0
  | mixG     (ctx : Ctx) (i : BitVec 4)     -- MIX_G, R178: step i of round 1
  | mixH     (ctx : Ctx) (i : BitVec 4)     -- MIX_H, R178: step i of round 2
  | ffwd     (ctx : Ctx) (t : BitVec 6)     -- FFWD, R181; the t bits are ignored
  | pad2     (ctx : Ctx) (t : BitVec 6)     -- PAD2, R147; the t bits are ignored
deriving DecidableEq, Repr

/-- The eight instructions a host can send (R72); "the host cannot send a micro-operation" (R82). -/
def Instr.isCommand : Instr → Bool
  | .nop => true
  | .init => true
  | .update _ => true
  | .updateE => true
  | .finalize => true
  | .rddig _ => true
  | .rdhex _ => true
  | .rdstat => true
  | .mixF _ _ => false
  | .mixG _ _ => false
  | .mixH _ _ => false
  | .ffwd _ _ => false
  | .pad2 _ _ => false

end Sys2Proof
end

