-- ==== Sys2Proof/WellFormed.lean ====
section
/-! DEFINITION. Well-formed instructions: the "condition" column of spec 30_encoding.md R82. A command's operand always
fits its field, because the constructor's operand has the field's width (R73). -/
namespace Sys2Proof

/-- R82's conditions: `ctx != 3` for MIX and FFWD, `ctx = 1` (FIN1) for PAD2. -/
def Instr.wellFormed : Instr → Bool
  | .nop => true
  | .init => true
  | .update _ => true
  | .updateE => true
  | .finalize => true
  | .rddig _ => true
  | .rdhex _ => true
  | .rdstat => true
  | .mixF ctx _ => ctx != .unused3
  | .mixG ctx _ => ctx != .unused3
  | .mixH ctx _ => ctx != .unused3
  | .ffwd ctx _ => ctx != .unused3
  | .pad2 ctx _ => ctx == .fin1

/-- `WellFormed i`: the instruction meets the conditions of its row. -/
abbrev WellFormed (i : Instr) : Prop := i.wellFormed = true

end Sys2Proof
end

