-- ==== Sys2Proof/Decode.lean ====
section
/-! DEFINITION. The two decoders, total on every word: of command words (spec 30_encoding.md R74) and of the sequencer
state (R82); then the encoder, from the same tables. -/
namespace Sys2Proof

/-- What a command word decodes to (R74): a command with its operand, or `Illegal`. -/
inductive CmdDecoded where
  | command (i : Instr)
  | illegal
deriving DecidableEq, Repr

/-- What a sequencer state decodes to (R82): nothing to do, a micro-operation, or a state that matches no row
(MIX with `t[5:4] = 3`, R187). -/
inductive SeqDecoded where
  | idle
  | micro (i : Instr)
  | noRow
deriving DecidableEq, Repr

/-- The fields of a command word (R70). -/
def opcField (w : CmdWord) : BitVec 4 := w.extractLsb' 12 4
def rsvField (w : CmdWord) : BitVec 3 := w.extractLsb' 9 3
def vField (w : CmdWord) : BitVec 1 := w.extractLsb' 8 1
def immField (w : CmdWord) : Byte := w.extractLsb' 0 8

/-- A command without an operand: `V` and `IMM8` must be 0 (R70). -/
def plainCommand (i : Instr) (w : CmdWord) : CmdDecoded :=
  if vField w = 0 ∧ immField w = 0 then .command i else .illegal

/-- Opcode 2 (R73): `V = 1` carries a byte, `V = 0` is the empty update and needs `IMM8 = 0`. -/
def decodeUpdate (w : CmdWord) : CmdDecoded :=
  if vField w = 1 then .command (.update (immField w)) else plainCommand .updateE w

/-- Opcode 4: `imm[7:4]` must be 0, the index is `imm[3:0]`. -/
def decodeRddig (w : CmdWord) : CmdDecoded :=
  if vField w = 0 ∧ (immField w).extractLsb' 4 4 = 0 then .command (.rddig ((immField w).extractLsb' 0 4)) else .illegal

/-- Opcode 5: `imm[7:5]` must be 0, the index is `imm[4:0]`. -/
def decodeRdhex (w : CmdWord) : CmdDecoded :=
  if vField w = 0 ∧ (immField w).extractLsb' 5 3 = 0 then .command (.rdhex ((immField w).extractLsb' 0 5)) else .illegal

/-- The decoder of R74, total on the 65,536 words. -/
def decodeCmd (w : CmdWord) : CmdDecoded :=
  if rsvField w ≠ 0 then .illegal
  else if opcField w = 0 then plainCommand .nop w
  else if opcField w = 1 then plainCommand .init w
  else if opcField w = 2 then decodeUpdate w
  else if opcField w = 3 then plainCommand .finalize w
  else if opcField w = 4 then decodeRddig w
  else if opcField w = 5 then decodeRdhex w
  else if opcField w = 6 then plainCommand .rdstat w
  else .illegal

/-- The two bits of `SEQ.ctx` as a context (R27). -/
def ctxOfBits (b : BitVec 2) : Ctx :=
  if b = 0 then .upd else if b = 1 then .fin1 else if b = 2 then .fin2 else .unused3

/-- A context as the two bits of `SEQ.ctx` (R27). -/
def ctxBits : Ctx → BitVec 2
  | .upd => 0
  | .fin1 => 1
  | .fin2 => 2
  | .unused3 => 3

/-- The fields of `SEQ[9:0]` (R82): `ctx` is 9:8, `phase` is 7:6, `t` is 5:0 with round 5:4 and step 3:0. -/
def seqCtxField (q : SeqWord) : Ctx := ctxOfBits (q.extractLsb' 8 2)
def seqPhaseField (q : SeqWord) : BitVec 2 := q.extractLsb' 6 2
def seqTField (q : SeqWord) : BitVec 6 := q.extractLsb' 0 6
def seqRoundField (q : SeqWord) : BitVec 2 := q.extractLsb' 4 2
def seqStepField (q : SeqWord) : BitVec 4 := q.extractLsb' 0 4

/-- A state in phase MIX: the round selects the micro-operation; round 3 has no row (R82, R187). -/
def decodeMix (q : SeqWord) : SeqDecoded :=
  if seqRoundField q = 0 then .micro (.mixF (seqCtxField q) (seqStepField q))
  else if seqRoundField q = 1 then .micro (.mixG (seqCtxField q) (seqStepField q))
  else if seqRoundField q = 2 then .micro (.mixH (seqCtxField q) (seqStepField q))
  else .noRow

/-- The decoder of the sequencer (R82), by match and mask. The condition column is `WellFormed`, and the meaning of a
micro-operation faults where the condition fails (R187). -/
def decodeSeq (q : SeqWord) : SeqDecoded :=
  if seqPhaseField q = 0 then .idle
  else if seqPhaseField q = 1 then decodeMix q
  else if seqPhaseField q = 2 then .micro (.ffwd (seqCtxField q) (seqTField q))
  else .micro (.pad2 (seqCtxField q) (seqTField q))

/-- One decoder for the opcode table's words. The two formats share no word: as a command word every micro-operation's
pattern (`0x040` to `0x3FF`) has opcode 0 and is illegal. Only this function reads both; the machine keeps them
apart (`decodeCmd` on accept, `decodeSeq` on SEQ). -/
def decodeTable (w : CmdWord) : Option Instr :=
  match decodeCmd w with
  | .command i => some i
  | .illegal =>
    if w.extractLsb' 10 6 = 0 then
      match decodeSeq (w.extractLsb' 0 10) with
      | .micro i => some i
      | .idle => none
      | .noRow => none
    else none

/-- The host's entry to the decoder: the first `nbits` bits of `w`, the bits above them 0. -/
def decodeTableWord (nbits w : Nat) : Option Instr :=
  if w % 2 ^ nbits < 2 ^ 16 then decodeTable (BitVec.ofNat 16 (w % 2 ^ nbits)) else none

/-- SEQ with the given fields (R82). -/
def seqWord (ctx : Ctx) (phase : BitVec 2) (t : BitVec 6) : SeqWord := ctxBits ctx ++ phase ++ t

/-- The encoding of an instruction (R72's match column with its operand; R82's pattern, extended with zeros). -/
def encode : Instr → CmdWord
  | .nop => 0x0000
  | .init => 0x1000
  | .update d => 0x21#8 ++ d
  | .updateE => 0x2000
  | .finalize => 0x3000
  | .rddig j => 0x400#12 ++ j
  | .rdhex j => 0x280#11 ++ j
  | .rdstat => 0x6000
  | .mixF ctx i => 0#6 ++ seqWord ctx 1 (0#2 ++ i)
  | .mixG ctx i => 0#6 ++ seqWord ctx 1 (1#2 ++ i)
  | .mixH ctx i => 0#6 ++ seqWord ctx 1 (2#2 ++ i)
  | .ffwd ctx t => 0#6 ++ seqWord ctx 2 t
  | .pad2 ctx t => 0#6 ++ seqWord ctx 3 t

/-- The bits of a command word in the order of a serialised interface: "Bit 15 of the command word is sent first" (R71). -/
def serialBits (w : CmdWord) : List Bool := (List.range 16).map (fun n => w.getLsbD (15 - n))

/-- The command word that bits received in that order make (R71). -/
def ofSerialBits (bs : List Bool) : CmdWord := bs.foldl (fun w b => (w <<< 1) ||| (BitVec.ofBool b).zeroExtend 16) 0

/-- One row of the opcode map: a word `w` matches it when `(w AND mask) = match` (R72, R82). -/
structure OpcodeRow where
  mnemonic : String
  mask     : CmdWord
  pattern  : CmdWord
deriving DecidableEq, Repr

/-- R72's test. -/
def OpcodeRow.holds (r : OpcodeRow) (w : CmdWord) : Bool := w &&& r.mask == r.pattern

/-- The opcode map of the commands, R72. -/
def commandRows : List OpcodeRow :=
  [⟨"NOP", 0xFFFF, 0x0000⟩, ⟨"INIT", 0xFFFF, 0x1000⟩, ⟨"UPDATE", 0xFF00, 0x2100⟩, ⟨"UPDATE.E", 0xFFFF, 0x2000⟩,
   ⟨"FINALIZE", 0xFFFF, 0x3000⟩, ⟨"RDDIG", 0xFFF0, 0x4000⟩, ⟨"RDHEX", 0xFFE0, 0x5000⟩, ⟨"RDSTAT", 0xFFFF, 0x6000⟩]

/-- The micro-operation rows of R82. -/
def microRows : List OpcodeRow :=
  [⟨"MIX_F", 0x0F0, 0x040⟩, ⟨"MIX_G", 0x0F0, 0x050⟩, ⟨"MIX_H", 0x0F0, 0x060⟩, ⟨"FFWD", 0x0C0, 0x080⟩,
   ⟨"PAD2", 0x0C0, 0x0C0⟩]

/-- An instruction's mnemonic (R72, R82). -/
def mnemonicOf : Instr → String
  | .nop => "NOP"
  | .init => "INIT"
  | .update _ => "UPDATE"
  | .updateE => "UPDATE.E"
  | .finalize => "FINALIZE"
  | .rddig _ => "RDDIG"
  | .rdhex _ => "RDHEX"
  | .rdstat => "RDSTAT"
  | .mixF _ _ => "MIX_F"
  | .mixG _ _ => "MIX_G"
  | .mixH _ _ => "MIX_H"
  | .ffwd _ _ => "FFWD"
  | .pad2 _ _ => "PAD2"

end Sys2Proof
end

