-- ==== Sys2Proof/Config.lean ====
section
/-! DEFINITION. The fixed parameters of the CORE (spec 00_scope.md R7). R7: "None of them is configurable."
The spec decides every open point (92_eei_decisions.md: "No row is `OPEN`"), so there is no free value here. -/
namespace Sys2Proof.Config

/-- `BLOCK` of R7: bytes of a block, and of BUF. -/
abbrev blockBytes : Nat := 64

/-- Where the 8-byte length field starts in the last padded block (R53). -/
abbrev lengthOffset : Nat := 56

/-- Mixer steps per block of R7: 3 rounds of 16 steps. -/
abbrev mixSteps : Nat := 48

/-- The most internal micro-steps one command takes (R240). -/
abbrev maxMicroSteps : Nat := 99

/-- The initial state of R7, word A. -/
def ivA : Word := 0x67452301
/-- The initial state of R7, word B. -/
def ivB : Word := 0xEFCDAB89
/-- The initial state of R7, word C. -/
def ivC : Word := 0x98BADCFE
/-- The initial state of R7, word D. -/
def ivD : Word := 0x10325476

end Sys2Proof.Config
end

