-- ==== Sys2Proof/Machine/State.lean ====
section
/-! DEFINITION. The state of the CORE (spec 10_state.md), the host's side of its ports (40_commands.md R100), the reasons
a step can stop, and the reset state (R36). -/
namespace Sys2Proof.Machine

/-- Four words in the order A, B, C, D: the form of `ST[0..3]` (R20) and `SV[0..3]` (R21). -/
structure Quad where
  a : Word
  b : Word
  c : Word
  d : Word
deriving DecidableEq, Repr

/-- The initial value of ST (R36). -/
def iv : Quad := ⟨Config.ivA, Config.ivB, Config.ivC, Config.ivD⟩

/-- `SEQ.phase` (R27): 0 IDLE, 1 MIX, 2 FFWD, 3 PAD2. -/
inductive Phase where
  | idle
  | mix
  | ffwd
  | pad2
deriving DecidableEq, Repr

/-- `SEQ`, the sequencer state (R27). -/
structure Seq where
  ctx   : Ctx
  phase : Phase
  t     : BitVec 6
deriving DecidableEq, Repr

/-- The status codes of R79, in code order 0 to 3. -/
inductive Status where
  | ok
  | errFinalized
  | notReady
  | illegal
deriving DecidableEq, Repr

/-- A response as the host gets it (R78). -/
structure Response where
  status : Status
  data   : Byte
deriving DecidableEq, Repr

/-- `RSP`, the response register (R28). -/
structure Rsp where
  valid  : Bool
  status : Status
  data   : Byte
deriving DecidableEq, Repr

/-- What the host drives on the four input ports (R100) while one step is taken. -/
structure Pins where
  rst      : Bool
  cmdValid : Bool
  cmdData  : CmdWord
  rspReady : Bool
deriving DecidableEq, Repr

/-- The block buffer as (index, byte) pairs in the canonical form `Memory.wf`; an unlisted index reads `0x00`,
which is what R36 puts into every byte at reset. -/
abbrev Memory := List Host.Cell

/-- The machine. `inputs` and `delivered` are the model's own: what the host will drive, one sample a step, and the
responses it has taken, both oldest first (log entries 1 and 2). All else is 10_state.md's. -/
structure State where
  st        : Quad          -- ST, R20
  sv        : Quad          -- SV, R21
  buf       : Memory        -- BUF, R22
  len       : BitVec 64     -- LEN, R23
  fin       : Bool          -- FIN, R26
  seq       : Seq           -- SEQ, R27
  rsp       : Rsp           -- RSP, R28
  inputs    : List Pins
  delivered : List Response
deriving DecidableEq, Repr

/-- The faults: the unreachable sequencer states of 42_round_mixer.md R187, which "a model must treat ... as `fault`".
Each is safe: the model stops where the spec says no run arrives (R214). -/
inductive Fault where
  /-- `SEQ.phase = MIX` with `SEQ.t[5:4] = 3`. Raised by the sequencer's decode. Safe. -/
  | unreachableRound
  /-- `SEQ.ctx = 3` outside IDLE. Raised by MIX, FFWD and PAD2. Safe. -/
  | unreachableCtx
  /-- `SEQ.phase = PAD2` with `SEQ.ctx` UPD or FIN2. Raised by PAD2. Safe. -/
  | unreachablePad2
deriving DecidableEq, Repr

/-- The refusals. -/
inductive Refusal where
  /-- An instruction without a meaning yet. Raised by `exec` only. No arm does. Safe. -/
  | notModelled (mnemonic : String)
  /-- No step is enabled: the core is IDLE, so it "has no internal step" (42_round_mixer.md R186), and the host drives
  nothing any more. This is R235's "stuck state with no step, not an error". The state is held (R215). Safe. -/
  | noStepEnabled
deriving DecidableEq, Repr

/-- The state after reset (R36, R230). The host has driven and taken nothing (log entry 2). -/
def State.reset : State where
  st := iv
  sv := ⟨0, 0, 0, 0⟩
  buf := []
  len := 0
  fin := false
  seq := ⟨.upd, .idle, 0⟩
  rsp := ⟨false, .ok, 0⟩
  inputs := []
  delivered := []

end Sys2Proof.Machine
end

