-- ==== Sys2Proof/Machine/Flags.lean ====
section
/-! DEFINITION. The values assembled from the state, not stored: FILL (spec 10_state.md R24), STATUS (R34), `cmd_ready`
(R29) and the output ports (40_commands.md R100). FIN is the only flag (R33); no operation computes a flag. -/
namespace Sys2Proof.Machine

/-- `FILL = LEN[8:3]` (R24). -/
def State.fill (s : State) : BitVec 6 := s.len.extractLsb' 3 6

/-- The STATUS byte (R34): FIN at bit 0, FILL at bits 6:1, bit 7 hardwired 0. -/
def State.statusByte (s : State) : Byte := (s.fill.zeroExtend 8 <<< 1) ||| (BitVec.ofBool s.fin).zeroExtend 8

/-- `cmd_ready = (SEQ.phase = IDLE) AND (RSP.valid = 0)` (R29). -/
def State.cmdReady (s : State) : Bool := s.seq.phase == .idle && !s.rsp.valid

/-- The port `rsp_valid` (R100). -/
def State.rspValid (s : State) : Bool := s.rsp.valid

/-- A status as its code (R79). -/
def statusCode : Status → BitVec 2
  | .ok => 0
  | .errFinalized => 1
  | .notReady => 2
  | .illegal => 3

/-- The response word (R78): `rsp[9:8]` the status code, `rsp[7:0]` the data byte. -/
def responseWord (r : Response) : BitVec 10 := statusCode r.status ++ r.data

/-- The response RSP holds, without its valid bit. -/
def Rsp.response (r : Rsp) : Response := ⟨r.status, r.data⟩

/-- The port `rsp_data`, `{RSP.status, RSP.data}` (R100). -/
def State.rspData (s : State) : BitVec 10 := responseWord s.rsp.response

end Sys2Proof.Machine
end

