-- ==== Sys2Proof/Machine/Ops.lean ====
section
/-! DEFINITION. The shared operations: BUF accesses, byte order (spec 20_memory.md R51 to R54), the sequencer word (R82), and
the actions the commands and micro-operations are made of: `respond` (40_commands.md R109), BLOCKSTART
(42_round_mixer.md R183), COMPLETE (R182) and PAD1 (41_padding_scheduler.md R145).
There is no exception to take or to return from: "Errors are reported, not trapped" (60_exceptions.md R200, R207), so
`respond` is the one shared operation every error goes through. -/
namespace Sys2Proof.Machine

/-! ## BUF -/

/-- The canonical form: indexes strictly rising, all in `0..63` (R50), no byte listed that an unlisted index reads as. -/
abbrev Memory.wf (m : Memory) : Prop :=
  m.Pairwise (fun x y => x.1 < y.1) ∧ ∀ c ∈ m, c.1 < 64 ∧ c.2 ≠ 0

/-- The byte at an index; an unlisted one reads `0x00`, the reset contents (R36). -/
def Memory.read : Memory → Nat → Byte
  | [], _ => 0
  | c :: m, a => if c.1 = a then c.2 else Memory.read m a

/-- The memory without any entry for `a`. -/
def Memory.erase : Memory → Nat → Memory
  | [], _ => []
  | c :: m, a => if c.1 = a then Memory.erase m a else c :: Memory.erase m a

/-- An entry put before the first one with a higher index. -/
def Memory.insert : Memory → Nat → Byte → Memory
  | [], a, v => [(a, v)]
  | c :: m, a, v => if a < c.1 then (a, v) :: c :: m else c :: Memory.insert m a v

/-- `BUF[a] <- v`. -/
def Memory.write (m : Memory) (a : Nat) (v : Byte) : Memory :=
  if v = 0 then Memory.erase m a else Memory.insert (Memory.erase m a) a v

/-- `MemWrite(BUF, a, |vs|, vs)` (R11). -/
def Memory.writeBytes : Memory → Nat → List Byte → Memory
  | m, _, [] => m
  | m, a, v :: vs => Memory.writeBytes (Memory.write m a v) (a + 1) vs

/-- `MemRead(BUF, a, n)` (R11). -/
def Memory.readBytes (m : Memory) : Nat → Nat → List Byte
  | _, 0 => []
  | a, n + 1 => Memory.read m a :: Memory.readBytes m (a + 1) n

/-! ## Words and bytes -/

/-- `rotl32(x, s)` for `0 < s < 32` (R9). -/
def rotl32 (x : Word) (s : Nat) : Word := (x <<< s) ||| (x >>> (32 - s))

/-- `le32(b0, b1, b2, b3)` (R10): the first byte is least significant. -/
def le32 (b0 b1 b2 b3 : Byte) : Word := b3 ++ b2 ++ b1 ++ b0

/-- Byte `p` of a word, `w[8p+7 : 8p]`. -/
def wordByte (w : Word) (p : Nat) : Byte := w.extractLsb' (8 * p) 8

/-- `LE32(w)` (R10). -/
def le32Bytes (w : Word) : List Byte := [wordByte w 0, wordByte w 1, wordByte w 2, wordByte w 3]

/-- `LE64(v)` (R10). -/
def le64Bytes (v : BitVec 64) : List Byte :=
  [v.extractLsb' 0 8, v.extractLsb' 8 8, v.extractLsb' 16 8, v.extractLsb' 24 8,
   v.extractLsb' 32 8, v.extractLsb' 40 8, v.extractLsb' 48 8, v.extractLsb' 56 8]

/-- Word `q` of a register of four (R20: `ST[0] = A` to `ST[3] = D`). -/
def Quad.word (r : Quad) (q : BitVec 2) : Word :=
  if q = 0 then r.a else if q = 1 then r.b else if q = 2 then r.c else r.d

/-- Four sums modulo 2^32; "no carry passes between words" (R181). -/
def Quad.add (x y : Quad) : Quad := ⟨x.a + y.a, x.b + y.b, x.c + y.c, x.d + y.d⟩

/-! ## The sequencer word -/

/-- The code of a phase (R27). -/
def phaseBits : Phase → BitVec 2
  | .idle => 0
  | .mix => 1
  | .ffwd => 2
  | .pad2 => 3

/-- The phase of a code (R27). -/
def phaseOfBits (b : BitVec 2) : Phase :=
  if b = 0 then .idle else if b = 1 then .mix else if b = 2 then .ffwd else .pad2

/-- `SEQ[9:0]` (R82). -/
def Seq.word (q : Seq) : SeqWord := seqWord q.ctx (phaseBits q.phase) q.t

/-- The sequencer state a 10-bit word stands for (R82). -/
def Seq.ofWord (w : SeqWord) : Seq := ⟨seqCtxField w, phaseOfBits (seqPhaseField w), seqTField w⟩

/-! ## Shared actions -/

/-- `respond(status, data)` (R109). -/
def respond (status : Status) (data : Byte) (s : State) : State := { s with rsp := ⟨true, status, data⟩ }

/-- `BLOCKSTART(c)` (R183): the pre-round state is saved and the sequencer enters MIX at step 0. -/
def blockStart (c : Ctx) (s : State) : State := { s with sv := s.st, seq := ⟨c, .mix, 0⟩ }

/-- `SEQ.phase <- p`. -/
def setPhase (p : Phase) (s : State) : State := { s with seq := { s.seq with phase := p } }

/-- The end of a command that ran micro-steps: idle again, and `(OK, 0x00)` (R182). -/
def finishOk (s : State) : State := respond .ok 0x00 (setPhase .idle s)

/-- `COMPLETE(ctx)` (R182), with R146's test for a second padded block. -/
def complete (ctx : Ctx) (s : State) : Host.Outcome State Fault Refusal :=
  match ctx with
  | .upd => .next (finishOk s)
  | .fin1 => if 56 ≤ s.fill.toNat then .next (setPhase .pad2 s) else .next (finishOk { s with fin := true })
  | .fin2 => .next (finishOk { s with fin := true })
  | .unused3 => .fault .unreachableCtx

/-- BUF with `0x00` written to the `n` bytes from `a` on. -/
def Memory.fillZero (m : Memory) (a n : Nat) : Memory := Memory.writeBytes m a (List.replicate n 0x00)

/-- BUF with the length field written at byte 56 (R53). -/
def Memory.writeLength (m : Memory) (len : BitVec 64) : Memory := Memory.writeBytes m 56 (le64Bytes len)

/-- The BUF that PAD1 leaves (R145), for `f = FILL`. -/
def pad1Buf (m : Memory) (f : Nat) (len : BitVec 64) : Memory :=
  let zeroed := Memory.fillZero (Memory.write m f 0x80) (f + 1) (63 - f)
  if f ≤ 55 then Memory.writeLength zeroed len else zeroed

/-- `PAD1()` (R145). -/
def pad1 (s : State) : State := { s with buf := pad1Buf s.buf s.fill.toNat s.len }

/-- The BUF that PAD2 leaves (R147). -/
def pad2Buf (m : Memory) (len : BitVec 64) : Memory := Memory.writeLength (Memory.fillZero m 0 56) len

end Sys2Proof.Machine
end

