-- ==== Sys2Proof/Machine/Absorb.lean ====
section
/-! DEFINITION. The commands that absorb message bytes: UPDATE (spec 40_commands.md R103) and UPDATE.E (R104). -/
namespace Sys2Proof.Machine

/-- The byte stored at FILL and LEN counted up by 8 (R103). -/
def absorb (d : Byte) (s : State) : State :=
  { s with buf := Memory.write s.buf s.fill.toNat d, len := s.len + 8 }

/-- UPDATE d (R103). The 64th byte of a block starts its compression; the response then comes from COMPLETE. -/
def execUpdate (d : Byte) (s : State) : Host.Outcome State Fault Refusal :=
  if s.fin then .next (respond .errFinalized 0x00 s)
  else if s.fill = 63 then .next (blockStart .upd (absorb d s))
  else .next (respond .ok 0x00 (absorb d s))

/-- UPDATE.E (R104). -/
def execUpdateE (s : State) : Host.Outcome State Fault Refusal :=
  if s.fin then .next (respond .errFinalized 0x00 s) else .next (respond .ok 0x00 s)

end Sys2Proof.Machine
end

