-- ==== Sys2Proof/Machine/Control.lean ====
section
/-! DEFINITION. The commands that move no data: NOP (spec 40_commands.md R101), INIT (R102), RDSTAT (R108), and the acceptance
action of an illegal word (60_exceptions.md R203). -/
namespace Sys2Proof.Machine

/-- NOP (R101). -/
def execNop (s : State) : Host.Outcome State Fault Refusal := .next (respond .ok 0x00 s)

/-- INIT (R102): a new message. "BUF and SV are not written." -/
def execInit (s : State) : Host.Outcome State Fault Refusal :=
  .next (respond .ok 0x00 { s with st := iv, len := 0, fin := false })

/-- RDSTAT (R108). -/
def execRdstat (s : State) : Host.Outcome State Fault Refusal := .next (respond .ok s.statusByte s)

/-- The acceptance action of `Illegal` (R203): `respond(ILLEGAL, 0x00)`. -/
def execIllegal (s : State) : Host.Outcome State Fault Refusal := .next (respond .illegal 0x00 s)

end Sys2Proof.Machine
end

