-- ==== Sys2Proof/Machine/Operands.lean ====
section
/-! DEFINITION. What the operands select: the message word of a mixer step (spec 41_padding_scheduler.md R140), the digest
byte of an index (20_memory.md R54) and the hex character of an index (40_commands.md R107). Operand fields themselves
are assembled by the decoder (30_encoding.md R73). -/
namespace Sys2Proof.Machine

/-- The message scheduler: `X[k] = le32(BUF[4k], BUF[4k+1], BUF[4k+2], BUF[4k+3])` (R52, R140). -/
def messageWord (m : Memory) (k : Nat) : Word :=
  le32 (Memory.read m (4 * k)) (Memory.read m (4 * k + 1)) (Memory.read m (4 * k + 2)) (Memory.read m (4 * k + 3))

/-- Digest byte `j`: with `q = j[3:2]` and `p = j[1:0]`, `ST[q][8p+7 : 8p]` (R106). -/
def digestByte (st : Quad) (j : BitVec 4) : Byte :=
  wordByte (st.word (j.extractLsb' 2 2)) (j.extractLsb' 0 2).toNat

/-- `hexchar(n)` (R107): `'0'..'9'`, `'a'..'f'`. -/
def hexChar (n : BitVec 4) : Byte := if n < 10 then 0x30 + n.zeroExtend 8 else 0x61 + (n.zeroExtend 8 - 10)

/-- The high nibble of a byte for an even index, the low one for an odd index (R107: "high nibble first"). -/
def nibbleFor (b : Byte) (odd : BitVec 1) : BitVec 4 := if odd = 0 then b.extractLsb' 4 4 else b.extractLsb' 0 4

/-- Hex character `j` of the digest (R107). -/
def digestHexChar (st : Quad) (j : BitVec 5) : Byte :=
  hexChar (nibbleFor (digestByte st (j.extractLsb' 1 4)) (j.extractLsb' 0 1))

end Sys2Proof.Machine
end

