-- ==== Sys2Proof/Machine/RoundTable.lean ====
section
/-! DEFINITION. The round functions F, G and H (spec 42_round_mixer.md R170 to R173) and the round-table ROM (R177). -/
namespace Sys2Proof.Machine

/-- Which function a round uses (R173). -/
inductive RoundFn where
  | f
  | g
  | h
deriving DecidableEq, Repr

/-- `F(x, y, z) = (x AND y) OR ((NOT x) AND z)` (R170). -/
def fnF (x y z : Word) : Word := (x &&& y) ||| (~~~x &&& z)

/-- `G(x, y, z) = (x AND y) OR (x AND z) OR (y AND z)` (R171). -/
def fnG (x y z : Word) : Word := (x &&& y) ||| (x &&& z) ||| (y &&& z)

/-- `H(x, y, z) = x XOR y XOR z` (R172). -/
def fnH (x y z : Word) : Word := x ^^^ y ^^^ z

/-- The function a name stands for (R173). -/
def RoundFn.apply : RoundFn → Word → Word → Word → Word
  | .f => fnF
  | .g => fnG
  | .h => fnH

/-- A ROM entry: function, word index `k`, rotation amount `s`, constant `K` (R177). -/
structure RomEntry where
  fn    : RoundFn
  k     : Nat
  s     : Nat
  const : Word
deriving DecidableEq, Repr

/-- Steps 0 to 15 of R177. -/
def roundTable0 : List RomEntry :=
  [⟨.f, 0, 3, 0x00000000⟩, ⟨.f, 1, 7, 0x00000000⟩, ⟨.f, 2, 11, 0x00000000⟩, ⟨.f, 3, 19, 0x00000000⟩,
   ⟨.f, 4, 3, 0x00000000⟩, ⟨.f, 5, 7, 0x00000000⟩, ⟨.f, 6, 11, 0x00000000⟩, ⟨.f, 7, 19, 0x00000000⟩,
   ⟨.f, 8, 3, 0x00000000⟩, ⟨.f, 9, 7, 0x00000000⟩, ⟨.f, 10, 11, 0x00000000⟩, ⟨.f, 11, 19, 0x00000000⟩,
   ⟨.f, 12, 3, 0x00000000⟩, ⟨.f, 13, 7, 0x00000000⟩, ⟨.f, 14, 11, 0x00000000⟩, ⟨.f, 15, 19, 0x00000000⟩]

/-- Steps 16 to 31 of R177. -/
def roundTable1 : List RomEntry :=
  [⟨.g, 0, 3, 0x5A827999⟩, ⟨.g, 4, 5, 0x5A827999⟩, ⟨.g, 8, 9, 0x5A827999⟩, ⟨.g, 12, 13, 0x5A827999⟩,
   ⟨.g, 1, 3, 0x5A827999⟩, ⟨.g, 5, 5, 0x5A827999⟩, ⟨.g, 9, 9, 0x5A827999⟩, ⟨.g, 13, 13, 0x5A827999⟩,
   ⟨.g, 2, 3, 0x5A827999⟩, ⟨.g, 6, 5, 0x5A827999⟩, ⟨.g, 10, 9, 0x5A827999⟩, ⟨.g, 14, 13, 0x5A827999⟩,
   ⟨.g, 3, 3, 0x5A827999⟩, ⟨.g, 7, 5, 0x5A827999⟩, ⟨.g, 11, 9, 0x5A827999⟩, ⟨.g, 15, 13, 0x5A827999⟩]

/-- Steps 32 to 47 of R177. -/
def roundTable2 : List RomEntry :=
  [⟨.h, 0, 3, 0x6ED9EBA1⟩, ⟨.h, 8, 9, 0x6ED9EBA1⟩, ⟨.h, 4, 11, 0x6ED9EBA1⟩, ⟨.h, 12, 15, 0x6ED9EBA1⟩,
   ⟨.h, 2, 3, 0x6ED9EBA1⟩, ⟨.h, 10, 9, 0x6ED9EBA1⟩, ⟨.h, 6, 11, 0x6ED9EBA1⟩, ⟨.h, 14, 15, 0x6ED9EBA1⟩,
   ⟨.h, 1, 3, 0x6ED9EBA1⟩, ⟨.h, 9, 9, 0x6ED9EBA1⟩, ⟨.h, 5, 11, 0x6ED9EBA1⟩, ⟨.h, 13, 15, 0x6ED9EBA1⟩,
   ⟨.h, 3, 3, 0x6ED9EBA1⟩, ⟨.h, 11, 9, 0x6ED9EBA1⟩, ⟨.h, 7, 11, 0x6ED9EBA1⟩, ⟨.h, 15, 15, 0x6ED9EBA1⟩]

/-- The round-table ROM (R30, R177): entry `t` for mixer step `t = 16r + i`. -/
def roundTable : List RomEntry := roundTable0 ++ roundTable1 ++ roundTable2

/-- ROM entry `t`; there is none for `t` in 48 to 63 (R50, R187). -/
def rom (t : Nat) : Option RomEntry := roundTable[t]?

end Sys2Proof.Machine
end

