-- ==== Sys2Proof/Machine/Mixer.lean ====
section
/-! DEFINITION. The micro-operations MIX_F, MIX_G, MIX_H (spec 42_round_mixer.md R178 to R180) and FFWD (R181, R182). Their
operands are SEQ's own fields, which the sequencer's decode hands over (R82; log entry 4). -/
namespace Sys2Proof.Machine

/-- The add chain and the rotate (R178): `rotl32((A + fn(B, C, D) + X + K) mod 2^32, s)`. -/
def mixWord (e : RomEntry) (x : Word) (q : Quad) : Word :=
  rotl32 (q.a + e.fn.apply q.b q.c q.d + x + e.const) e.s

/-- The state rotation `(A, B, C, D) <- (D, new_A, B, C)` (R179). -/
def mixQuad (e : RomEntry) (x : Word) (q : Quad) : Quad := ⟨q.d, mixWord e x q, q.b, q.c⟩

/-- The step counter (R180): `SEQ.t <- t + 1` below 47, and after step 47 phase FFWD. -/
def advanceStep (t : BitVec 6) (q : Seq) : Seq :=
  if t.toNat < 47 then { q with t := t + 1 } else { q with phase := .ffwd }

/-- MIX on the state with ROM entry `e` (R178). -/
def mixWith (e : RomEntry) (t : BitVec 6) (s : State) : State :=
  { s with st := mixQuad e (messageWord s.buf e.k) s.st, seq := advanceStep t s.seq }

/-- `MIX()` at step `t` with context `ctx` (R178). `ctx = 3` and a step without a ROM entry are R187's faults. -/
def mixStep (ctx : Ctx) (t : BitVec 6) (s : State) : Host.Outcome State Fault Refusal :=
  if ctx = .unused3 then .fault .unreachableCtx
  else
    match rom t.toNat with
    | some e => .next (mixWith e t s)
    | none => .fault .unreachableRound

/-- MIX_F (R178): step `i` of round 0, `t = i`. -/
def execMixF (ctx : Ctx) (i : BitVec 4) (s : State) : Host.Outcome State Fault Refusal := mixStep ctx (0#2 ++ i) s

/-- MIX_G (R178): step `i` of round 1, `t = 16 + i`. -/
def execMixG (ctx : Ctx) (i : BitVec 4) (s : State) : Host.Outcome State Fault Refusal := mixStep ctx (1#2 ++ i) s

/-- MIX_H (R178): step `i` of round 2, `t = 32 + i`. -/
def execMixH (ctx : Ctx) (i : BitVec 4) (s : State) : Host.Outcome State Fault Refusal := mixStep ctx (2#2 ++ i) s

/-- FFWD (R181): the feed-forward sums, then COMPLETE. The `t` bits are ignored (R82). -/
def execFfwd (ctx : Ctx) (_t : BitVec 6) (s : State) : Host.Outcome State Fault Refusal :=
  complete ctx { s with st := s.st.add s.sv }

end Sys2Proof.Machine
end

