-- ==== Sys2Proof/Machine/Padding.lean ====
section
/-! DEFINITION. The padding controller: FINALIZE with PAD1 (spec 40_commands.md R105, 41_padding_scheduler.md R145) and the
micro-operation PAD2 (R147). -/
namespace Sys2Proof.Machine

/-- FINALIZE (R105): idempotent once FIN = 1, else PAD1 and BLOCKSTART(FIN1); the response comes from COMPLETE. -/
def execFinalize (s : State) : Host.Outcome State Fault Refusal :=
  if s.fin then .next (respond .ok 0x00 s) else .next (blockStart .fin1 (pad1 s))

/-- PAD2 (R147): "it requires `SEQ.ctx = FIN1`"; any other context is R187's fault. The `t` bits are ignored (R82). -/
def execPad2 (ctx : Ctx) (_t : BitVec 6) (s : State) : Host.Outcome State Fault Refusal :=
  match ctx with
  | .fin1 => .next (blockStart .fin2 { s with buf := pad2Buf s.buf s.len })
  | .upd => .fault .unreachablePad2
  | .fin2 => .fault .unreachablePad2
  | .unused3 => .fault .unreachableCtx

end Sys2Proof.Machine
end

