-- ==== Sys2Proof/Machine/ReadOut.lean ====
section
/-! DEFINITION. The digest reads RDDIG (spec 40_commands.md R106) and RDHEX (R107): ST is shown only once FIN = 1 (R35). -/
namespace Sys2Proof.Machine

/-- RDDIG j (R106). -/
def execRddig (j : BitVec 4) (s : State) : Host.Outcome State Fault Refusal :=
  if s.fin then .next (respond .ok (digestByte s.st j) s) else .next (respond .notReady 0x00 s)

/-- RDHEX j (R107). -/
def execRdhex (j : BitVec 5) (s : State) : Host.Outcome State Fault Refusal :=
  if s.fin then .next (respond .ok (digestHexChar s.st j) s) else .next (respond .notReady 0x00 s)

end Sys2Proof.Machine
end

