-- ==== Sys2Proof/Machine/Dispatch.lean ====
section
/-! DEFINITION. One arm per constructor of `Instr`: the acceptance action of a command (spec 40_commands.md R110), or the
micro-operation of the sequencer (42_round_mixer.md R186). -/
namespace Sys2Proof.Machine

def exec (i : Instr) (s : State) : Host.Outcome State Fault Refusal :=
  match i with
  | .nop => Sys2Proof.Machine.execNop s
  | .init => Sys2Proof.Machine.execInit s
  | .update d => Sys2Proof.Machine.execUpdate d s
  | .updateE => Sys2Proof.Machine.execUpdateE s
  | .finalize => Sys2Proof.Machine.execFinalize s
  | .rddig j => Sys2Proof.Machine.execRddig j s
  | .rdhex j => Sys2Proof.Machine.execRdhex j s
  | .rdstat => Sys2Proof.Machine.execRdstat s
  | .mixF ctx j => Sys2Proof.Machine.execMixF ctx j s
  | .mixG ctx j => Sys2Proof.Machine.execMixG ctx j s
  | .mixH ctx j => Sys2Proof.Machine.execMixH ctx j s
  | .ffwd ctx t => Sys2Proof.Machine.execFfwd ctx t s
  | .pad2 ctx t => Sys2Proof.Machine.execPad2 ctx t s

end Sys2Proof.Machine
end

