-- ==== Sys2Proof/Machine/Ports.lean ====
section
/-! DEFINITION. What happens on the ports (spec 40_commands.md R100): *reset* (70_reset_and_hazards.md R230), *take* (R109),
*accept* (R110), and the core's internal step (42_round_mixer.md R186). -/
namespace Sys2Proof.Machine

/-- A sample in which the host drives nothing. -/
def Pins.quiet : Pins := ⟨false, false, 0, false⟩

/-- A sample in which the host offers `w`. -/
def Pins.offer (w : CmdWord) : Pins := ⟨false, true, w, false⟩

/-- A sample in which the host is ready for a response. -/
def Pins.ready : Pins := ⟨false, false, 0, true⟩

/-- RESET (R230): every piece of the CORE's state at its reset value. What the host has taken, and what it will drive, is
not the CORE's. -/
def resetCore (s : State) : State := { State.reset with inputs := s.inputs, delivered := s.delivered }

/-- *take* (R109): the response is delivered and `RSP.valid <- 0`. -/
def take (s : State) : State :=
  { s with rsp := { s.rsp with valid := false }, delivered := s.delivered ++ [s.rsp.response] }

/-- *accept(w)* (R110): the acceptance action of what `w` decodes to. -/
def accept (w : CmdWord) (s : State) : Host.Outcome State Fault Refusal :=
  match decodeCmd w with
  | .command i => exec i s
  | .illegal => execIllegal s

/-- The core's internal step (R186): the micro-operation that SEQ decodes to. In IDLE there is none. -/
def internalStep (s : State) : Host.Outcome State Fault Refusal :=
  match decodeSeq s.seq.word with
  | .idle => .refused .noStepEnabled
  | .micro i => exec i s
  | .noRow => .fault .unreachableRound

/-- The fault of an unreachable sequencer state (42_round_mixer.md R187), none in every other state. Which fault a state has
in which two conditions hold is log entry 5's choice. -/
def seqFault (q : Seq) : Option Fault :=
  if q.phase = .idle then none
  else if q.phase = .mix ∧ 48 ≤ q.t.toNat then some .unreachableRound
  else if q.ctx = .unused3 then some .unreachableCtx
  else if q.phase = .pad2 ∧ q.ctx ≠ .fin1 then some .unreachablePad2
  else none

/-- The event that a sample without reset brings: *take* or *accept* where R100 enables it, else the internal step. An idle
core with no event enabled holds its state (R215, R234). -/
def eventStep (p : Pins) (s : State) : Host.Outcome State Fault Refusal :=
  if s.rsp.valid && p.rspReady then .next (take s)
  else if s.cmdReady && p.cmdValid then accept p.cmdData s
  else if s.seq.phase = .idle then .next s
  else internalStep s

/-- One step under a sample of the input ports: reset beats everything (R205), then an unreachable sequencer state faults,
whatever the host drives ("never continues from it", 60_exceptions.md R214), then the sample's event. -/
def pinStep (p : Pins) (s : State) : Host.Outcome State Fault Refusal :=
  if p.rst then .next (resetCore s)
  else
    match seqFault s.seq with
    | some f => .fault f
    | none => eventStep p s

/-- The host's driving for one command word (R81, R233): offer it, then stay ready for the response until it must have
come (99 micro-steps, R240) and be taken. -/
def driveWord (w : CmdWord) : List Pins := Pins.offer w :: List.replicate 100 Pins.ready

/-- The host's driving for a program: "Every command is issued when `cmd_ready = 1`, and its response is taken before the
next command" (R81). -/
def driveProgram : List CmdWord → List Pins
  | [] => []
  | w :: ws => driveWord w ++ driveProgram ws

end Sys2Proof.Machine
end

