-- ==== Sys2Proof/Machine/Step.lean ====
section
/-! DEFINITION. One step of the machine: one event of spec 00_scope.md R3 or one micro-step, under the next sample of the
input ports. The CORE fetches no instructions (20_memory.md R63): a command comes from the host's port, a
micro-operation from SEQ (log entry 6). -/
namespace Sys2Proof.Machine

/-- The step. With no sample left the host drives nothing, and the core still makes its internal steps: "An internal step
never waits for the host" (R186). -/
def step (s : State) : Host.Outcome State Fault Refusal :=
  match s.inputs with
  | [] => internalStep s
  | p :: rest => pinStep p { s with inputs := rest }

/-- The state in which a command word is offered next to a core that can accept it. -/
def State.offering (s : State) (w : CmdWord) : State :=
  { s with seq := { s.seq with phase := .idle }, rsp := { s.rsp with valid := false }, inputs := Pins.offer w :: s.inputs }

/-- The state in which SEQ holds `q` and the host drives nothing for one step. -/
def State.sequencing (s : State) (q : SeqWord) : State :=
  { s with seq := Seq.ofWord q, inputs := Pins.quiet :: s.inputs }

/-- Placing an instruction so that the next step runs it: a command word on the host's port, a micro-operation's pattern
in SEQ. -/
def State.withFetchWord (s : State) (nbits w : Nat) : State :=
  match decodeTableWord nbits w with
  | some i =>
    if i.isCommand then s.offering (BitVec.ofNat 16 (w % 2 ^ nbits)) else s.sequencing (BitVec.ofNat 10 (w % 2 ^ nbits))
  | none => s.offering (BitVec.ofNat 16 (w % 2 ^ nbits))

end Sys2Proof.Machine
end

