-- ==== Sys2Proof/Machine/Assembler.lean ====
section
/-! DEFINITION. The command assembly language (spec 30_encoding.md R80) and the pseudo-instructions (R81), from text to command
words. "An operand out of range is an assembly error": the result is then `none`. What the text form leaves open is log
entry 7. -/
namespace Sys2Proof.Machine

/-- A line of assembly once read: a command of R80, `.word`, or a pseudo-instruction of R81. -/
inductive AsmOp where
  | nop
  | init
  | update (d : Nat)
  | updateE
  | finalize
  | rddig (j : Nat)
  | rdhex (j : Nat)
  | rdstat
  | word (w : Nat)
  | updates (bs : List Nat)
  | updatesText (cs : List Char)
  | digest
  | hexDigest
  | hashText (cs : List Char)
deriving DecidableEq, Repr

/-- `UPDATE d` with `0 <= d <= 255` (R80). -/
def asmUpdate (d : Nat) : Option CmdWord := if d ≤ 255 then some (encode (.update (BitVec.ofNat 8 d))) else none

/-- `RDDIG j` with `0 <= j <= 15` (R80). -/
def asmRddig (j : Nat) : Option CmdWord := if j ≤ 15 then some (encode (.rddig (BitVec.ofNat 4 j))) else none

/-- `RDHEX j` with `0 <= j <= 31` (R80). -/
def asmRdhex (j : Nat) : Option CmdWord := if j ≤ 31 then some (encode (.rdhex (BitVec.ofNat 5 j))) else none

/-- The UPDATEs of a string: "Characters outside ASCII are an assembly error" (R81). -/
def asmText (cs : List Char) : Option (List CmdWord) :=
  cs.mapM (fun c => if c.toNat < 128 then asmUpdate c.toNat else none)

/-- `DIGEST`: `RDDIG 0` to `RDDIG 15` (R81). -/
def digestWords : List CmdWord := (List.range 16).map (fun j => encode (.rddig (BitVec.ofNat 4 j)))

/-- The reads of `HEXDIGEST`: `RDHEX 0` to `RDHEX 31` (R81). -/
def hexReadWords : List CmdWord := (List.range 32).map (fun j => encode (.rdhex (BitVec.ofNat 5 j)))

/-- The command words of a line, in the order shown (R80, R81). -/
def assembleOp : AsmOp → Option (List CmdWord)
  | .nop => some [encode .nop]
  | .init => some [encode .init]
  | .update d => (asmUpdate d).map (fun w => [w])
  | .updateE => some [encode .updateE]
  | .finalize => some [encode .finalize]
  | .rddig j => (asmRddig j).map (fun w => [w])
  | .rdhex j => (asmRdhex j).map (fun w => [w])
  | .rdstat => some [encode .rdstat]
  | .word w => if w < 2 ^ 16 then some [BitVec.ofNat 16 w] else none
  | .updates bs => if bs.isEmpty then some [encode .updateE] else bs.mapM asmUpdate
  | .updatesText cs => asmText cs
  | .digest => some digestWords
  | .hexDigest => some (encode .finalize :: hexReadWords)
  | .hashText cs => (asmText cs).map (fun ws => [encode .init] ++ ws ++ [encode .finalize] ++ digestWords)

/-- The pieces of a line. -/
inductive AsmToken where
  | name (cs : List Char)
  | number (n : Nat)
  | text (cs : List Char)
  | comma
deriving DecidableEq, Repr

/-- The value of a digit of a base up to 16. -/
def digitValue (base : Nat) (c : Char) : Option Nat :=
  let v := if '0' ≤ c ∧ c ≤ '9' then c.toNat - '0'.toNat
    else if 'a' ≤ c ∧ c ≤ 'f' then c.toNat - 'a'.toNat + 10
    else if 'A' ≤ c ∧ c ≤ 'F' then c.toNat - 'A'.toNat + 10
    else base
  if v < base then some v else none

/-- The number a digit sequence stands for, most significant first. -/
def digitsValue (base : Nat) : Nat → List Char → Option Nat
  | n, [] => some n
  | n, c :: cs => (digitValue base c).bind (fun v => digitsValue base (base * n + v) cs)

/-- A bare piece: decimal or `0x` hexadecimal when it begins with a digit, else a name, "case-insensitive" (R80). -/
def bareToken (cs : List Char) : Option AsmToken :=
  match cs with
  | '0' :: 'x' :: d :: ds => (digitsValue 16 0 (d :: ds)).map .number
  | c :: _ => if c.isDigit then (digitsValue 10 0 cs).map .number else some (.name (cs.map Char.toUpper))
  | [] => none

/-- Where the reader of a line stands: between pieces, in a bare piece, in a string, after an opening quote, or before
the closing quote of a character literal. -/
inductive ScanMode where
  | gap
  | bare (seen : List Char)
  | text (seen : List Char)
  | quote
  | quoted (c : Char)
deriving DecidableEq, Repr

/-- The tokens of a line. A comment runs from `;` to the end of the line (R80). The model's choices (log entry 7): a string
ends at the first double quote, without escapes, so that a backslash is that character; and a bare piece ends at white
space, a comma or `;` only, so that a quote right after a mnemonic is part of the piece and the line is refused. -/
def scan : ScanMode → List Char → Option (List AsmToken)
  | .gap, [] => some []
  | .bare seen, [] => (bareToken seen.reverse).map (fun t => [t])
  | .text _, [] => none
  | .quote, [] => none
  | .quoted _, [] => none
  | .gap, c :: cs =>
    if c = ';' then some []
    else if c.isWhitespace then scan .gap cs
    else if c = ',' then (scan .gap cs).map (.comma :: ·)
    else if c = '"' then scan (.text []) cs
    else if c = '\'' then scan .quote cs
    else scan (.bare [c]) cs
  | .bare seen, c :: cs =>
    if c = ';' then (bareToken seen.reverse).map (fun t => [t])
    else if c.isWhitespace then (bareToken seen.reverse).bind (fun t => (scan .gap cs).map (t :: ·))
    else if c = ',' then (bareToken seen.reverse).bind (fun t => (scan .gap cs).map (fun ts => t :: .comma :: ts))
    else scan (.bare (c :: seen)) cs
  | .text seen, c :: cs =>
    if c = '"' then (scan .gap cs).map (.text seen.reverse :: ·) else scan (.text (c :: seen)) cs
  | .quote, c :: cs => if c.toNat < 128 then scan (.quoted c) cs else none
  | .quoted q, c :: cs => if c = '\'' then (scan .gap cs).map (.number q.toNat :: ·) else none

/-- The numbers of a comma-separated list. -/
def numberList : List AsmToken → Option (List Nat)
  | [.number n] => some [n]
  | .number n :: .comma :: ts => (numberList ts).map (n :: ·)
  | _ => none

/-- A line that is one name. -/
def plainOp (n : List Char) : Option AsmOp :=
  if n = "NOP".toList then some .nop
  else if n = "INIT".toList then some .init
  else if n = "UPDATE.E".toList then some .updateE
  else if n = "FINALIZE".toList then some .finalize
  else if n = "RDSTAT".toList then some .rdstat
  else if n = "UPDATES".toList then some (.updates [])
  else if n = "DIGEST".toList then some .digest
  else if n = "HEXDIGEST".toList then some .hexDigest
  else none

/-- A line with one number. -/
def numberOp (n : List Char) (v : Nat) : Option AsmOp :=
  if n = "UPDATE".toList then some (.update v)
  else if n = "RDDIG".toList then some (.rddig v)
  else if n = "RDHEX".toList then some (.rdhex v)
  else if n = ".WORD".toList then some (.word v)
  else if n = "UPDATES".toList then some (.updates [v])
  else none

/-- A line with one string. -/
def textOp (n : List Char) (cs : List Char) : Option AsmOp :=
  if n = "UPDATES".toList then some (.updatesText cs)
  else if n = "HASH".toList then some (.hashText cs)
  else none

/-- The line a token list stands for: `MNEMONIC [operand]`, "one command per line" (R80). -/
def parseTokens : List AsmToken → Option AsmOp
  | [.name n] => plainOp n
  | [.name n, .number v] => numberOp n v
  | [.name n, .text cs] => textOp n cs
  | .name n :: ts => if n = "UPDATES".toList then (numberList ts).map .updates else none
  | _ => none

/-- The command words of one line of text; a line without tokens gives none. -/
def assembleLine (cs : List Char) : Option (List CmdWord) :=
  (scan .gap cs).bind (fun ts => if ts.isEmpty then some [] else (parseTokens ts).bind assembleOp)

/-- The command words of a program of several lines. -/
def assembleLines : List (List Char) → Option (List CmdWord)
  | [] => some []
  | l :: ls => (assembleLine l).bind (fun ws => (assembleLines ls).map (ws ++ ·))

end Sys2Proof.Machine
end

