-- ==== Sys2Proof/Machine/Reference.lean ====
section
/-! DEFINITION. The reference: padding (spec 41_padding_scheduler.md R142), the block compression (42_round_mixer.md R184),
`chain`, `MD4` and `hex` (R149), and the reference machine over whole messages (R150). The machine never calls these;
statements compare it with them (40_commands.md R111). -/
namespace Sys2Proof.Machine

/-- `bitlen = (8 * L) mod 2^64` (R142). -/
def bitLength (m : List Byte) : BitVec 64 := BitVec.ofNat 64 (8 * m.length)

/-- `z = (55 - L) mod 64`, "in 0..63" (R142). -/
def padZeros (l : Nat) : Nat := ((55 - (l : Int)) % 64).toNat

/-- `pad(m) = m ‖ 0x80 ‖ 0x00^z ‖ LE64(bitlen)` (R142). -/
def pad (m : List Byte) : List Byte := m ++ [0x80] ++ List.replicate (padZeros m.length) 0x00 ++ le64Bytes (bitLength m)

/-- `nblk(L) = floor((L + 8) / 64) + 1` (R143). -/
def blockCount (l : Nat) : Nat := (l + 8) / 64 + 1

/-- `X[j]` of a block given as bytes (R52, R184). -/
def blockWord (blk : List Byte) (j : Nat) : Word :=
  le32 (blk.getD (4 * j) 0) (blk.getD (4 * j + 1) 0) (blk.getD (4 * j + 2) 0) (blk.getD (4 * j + 3) 0)

/-- The steps of a list of ROM entries, in order, on the words of `blk`. -/
def mixSteps (blk : List Byte) (es : List RomEntry) (h : Quad) : Quad :=
  es.foldl (fun q e => mixQuad e (blockWord blk e.k) q) h

/-- `compress(h, blk)` (R184). -/
def compress (h : Quad) (blk : List Byte) : Quad := (mixSteps blk roundTable h).add h

/-- `chain` over `n` blocks of 64 bytes. -/
def chainBlocks : Nat → Quad → List Byte → Quad
  | 0, h, _ => h
  | n + 1, h, b => chainBlocks n (compress h (b.take 64)) (b.drop 64)

/-- `chain(h, b)` for `|b|` a multiple of 64 (R149). -/
def chain (h : Quad) (b : List Byte) : Quad := chainBlocks (b.length / 64) h b

/-- `LE32(H[0]) ‖ LE32(H[1]) ‖ LE32(H[2]) ‖ LE32(H[3])` (R149). -/
def quadBytes (h : Quad) : List Byte := le32Bytes h.a ++ le32Bytes h.b ++ le32Bytes h.c ++ le32Bytes h.d

/-- `MD4(m)` (R149). -/
def md4 (m : List Byte) : List Byte := quadBytes (chain iv (pad m))

/-- The two hex characters of a byte, high nibble first (R149). -/
def byteHex (b : Byte) : List Byte := [hexChar (b.extractLsb' 4 4), hexChar (b.extractLsb' 0 4)]

/-- The hex characters of a byte sequence (R149: of `MD4(m)`, "in order"). -/
def bytesHex (bs : List Byte) : List Byte := bs.flatMap byteHex

/-- `hex(m)` (R149). -/
def md4Hex (m : List Byte) : List Byte := bytesHex (md4 m)

/-- The reference machine's state, `(msg : bytes, fin : bool)` (R150). -/
structure RefState where
  msg : List Byte
  fin : Bool
deriving DecidableEq, Repr

/-- Its reset state, `([], false)` (R150). -/
def RefState.reset : RefState := ⟨[], false⟩

/-- `2 * (|msg| mod 64) + (1 if fin else 0)` (R150). -/
def refStatus (r : RefState) : Byte := BitVec.ofNat 8 (2 * (r.msg.length % 64) + if r.fin then 1 else 0)

/-- One command of the table of R150. A micro-operation is no command; it is answered as R150 answers `Illegal`, and no
command word decodes to one. -/
def refExec (r : RefState) : Instr → RefState × Response
  | .nop => (r, ⟨.ok, 0⟩)
  | .init => (RefState.reset, ⟨.ok, 0⟩)
  | .update d => if r.fin then (r, ⟨.errFinalized, 0⟩) else (⟨r.msg ++ [d], false⟩, ⟨.ok, 0⟩)
  | .updateE => if r.fin then (r, ⟨.errFinalized, 0⟩) else (r, ⟨.ok, 0⟩)
  | .finalize => (⟨r.msg, true⟩, ⟨.ok, 0⟩)
  | .rddig j => if r.fin then (r, ⟨.ok, (md4 r.msg).getD j.toNat 0⟩) else (r, ⟨.notReady, 0⟩)
  | .rdhex j => if r.fin then (r, ⟨.ok, (md4Hex r.msg).getD j.toNat 0⟩) else (r, ⟨.notReady, 0⟩)
  | .rdstat => (r, ⟨.ok, refStatus r⟩)
  | .mixF _ _ => (r, ⟨.illegal, 0⟩)
  | .mixG _ _ => (r, ⟨.illegal, 0⟩)
  | .mixH _ _ => (r, ⟨.illegal, 0⟩)
  | .ffwd _ _ => (r, ⟨.illegal, 0⟩)
  | .pad2 _ _ => (r, ⟨.illegal, 0⟩)

/-- One command word of the reference machine (R150). -/
def refStep (r : RefState) (w : CmdWord) : RefState × Response :=
  match decodeCmd w with
  | .command i => refExec r i
  | .illegal => (r, ⟨.illegal, 0⟩)

/-- The reference machine's state after a program. -/
def refAfter : RefState → List CmdWord → RefState
  | r, [] => r
  | r, w :: ws => refAfter (refStep r w).1 ws

/-- The reference machine's responses to a program, in order. -/
def refResponses : RefState → List CmdWord → List Response
  | _, [] => []
  | r, w :: ws => (refStep r w).2 :: refResponses (refStep r w).1 ws

end Sys2Proof.Machine
end

