-- ==== Sys2Proof/Safety.lean ====
section
/-! DEFINITION. What a safe state and a safe run are: the invariant that holds at reset and that every step keeps, and the
absence of the faults of spec 42_round_mixer.md R187. -/
namespace Sys2Proof.Safety
open Sys2Proof.Machine

/-- The sequencer values that rules write (R27, R187; 95_test_vectors.md 2.14): ctx is never 3, t is `0..47` and stands at
47 once the mixing is done, and PAD2 runs with ctx FIN1 only. -/
def seqOk (q : Seq) : Prop :=
  q.ctx ≠ .unused3 ∧ q.t.toNat ≤ 47 ∧ (q.phase = .ffwd ∨ q.phase = .pad2 → q.t.toNat = 47) ∧
    (q.phase = .pad2 → q.ctx = .fin1)

/-- The block being compressed is what its context says (R103, R146, R147): UPDATE's block leaves FILL = 0, a second padded
block exists only when FILL >= 56. -/
def blockOk (s : State) : Prop :=
  (s.seq.phase ≠ .idle → s.seq.ctx = .upd → s.fill = 0) ∧
    (s.seq.phase = .pad2 → 56 ≤ s.fill.toNat) ∧
    (s.seq.phase ≠ .idle → s.seq.ctx = .fin2 → 56 ≤ s.fill.toNat)

/-- The invariant of the machine. -/
structure Inv (s : State) : Prop where
  /-- BUF keeps its canonical form. -/
  bufWf : Memory.wf s.buf
  /-- `LEN[2:0]` is always `0b000` (R25). -/
  lenAligned : s.len.extractLsb' 0 3 = 0
  /-- The sequencer holds only values that rules write (R27, R32). -/
  seqReachable : seqOk s.seq
  /-- "A response is pending only while the core is idle" (R186). -/
  pendingIdle : s.rsp.valid = true → s.seq.phase = .idle
  /-- "No state exists in which `FIN = 1` and the digest is not yet final" (R182). -/
  finIdle : s.fin = true → s.seq.phase = .idle
  /-- R146. -/
  block : blockOk s

/-- `k` steps, stopping at the first fault or refusal: `Host.Core.run` of the core, written with the model's own types. -/
def run : Nat → State → Host.Outcome State Fault Refusal
  | 0, s => .next s
  | k + 1, s =>
    match step s with
    | .next t => run k t
    | .fault r => .fault r
    | .refused r => .refused r

/-- `s` runs `k` steps to `t`, without a fault or a stop. -/
def RunsTo (k : Nat) (s t : State) : Prop := run k s = .next t

/-- No run from `s` ends in a fault. -/
def FaultFree (s : State) : Prop := ∀ k f, run k s ≠ .fault f

end Sys2Proof.Safety
end

