-- ==== Sys2Proof/Certificates/Slice0/Obligations.lean ====
section
/-! DEFINITION. The statements for the provers. Each docstring names the rule of spec/ it comes from. The words a statement
needs and the machine does not have stand first. -/
namespace Sys2Proof.Claims
open Sys2Proof.Machine Sys2Proof.Safety

/-- The value of a byte of a word, counted from the least significant (R10). -/
def byteValue (w : Nat) (p : Nat) : Nat := w / 256 ^ p % 256

/-- The four words of a register as a list in the order A, B, C, D (R20). -/
def wordList (q : Quad) : List Word := [q.a, q.b, q.c, q.d]

/-- The message word `X[k]` as a number, from the four bytes it is made of (R52). -/
def messageNat (m : Memory) (k : Nat) : Nat :=
  (Memory.read m (4 * k)).toNat + 2 ^ 8 * (Memory.read m (4 * k + 1)).toNat + 2 ^ 16 * (Memory.read m (4 * k + 2)).toNat +
    2 ^ 24 * (Memory.read m (4 * k + 3)).toNat

/-- The left rotation of a 32-bit number by `s` positions (R9). -/
def rotlNat (x s : Nat) : Nat := x * 2 ^ s % 2 ^ 32 + x / 2 ^ (32 - s)

/-- The word index of step `i` of round `r`, by the closed forms of R175: round 2 reverses the four bits of `i`. -/
def wordIndex (r i : Nat) : Nat :=
  if r = 0 then i
  else if r = 1 then 4 * (i % 4) + i / 4
  else 8 * (i % 2) + 4 * (i / 2 % 2) + 2 * (i / 4 % 2) + i / 8

/-- The rotation amount of step `i` of round `r` (R176). -/
def rotationAmount (r i : Nat) : Nat :=
  (if r = 0 then [3, 7, 11, 19] else if r = 1 then [3, 5, 9, 13] else [3, 9, 11, 15]).getD (i % 4) 0

/-- The constant of round `r` (R174). -/
def roundConstant (r : Nat) : Nat := if r = 0 then 0 else if r = 1 then 0x5A827999 else 0x6ED9EBA1

/-- The function of round `r` on B, C, D (R170 to R173), written out. -/
def roundMix (r : Nat) (q : Quad) : Word :=
  if r = 0 then (q.b &&& q.c) ||| (~~~q.b &&& q.d)
  else if r = 1 then (q.b &&& q.c) ||| (q.b &&& q.d) ||| (q.c &&& q.d)
  else q.b ^^^ q.c ^^^ q.d

/-- The new word of step `i` of round `r`, as a number (R178). -/
def newWordNat (r i : Nat) (s : State) : Nat :=
  rotlNat ((s.st.a.toNat + (roundMix r s.st).toNat + messageNat s.buf (wordIndex r i) + roundConstant r) % 2 ^ 32)
    (rotationAmount r i)

/-- What a MIX micro-operation of round `r`, step `i` does (R178 to R180), and that it changes nothing else. -/
def MixEffect (r i : Nat) (s t : State) : Prop :=
  t.st.a = s.st.d ∧ t.st.b.toNat = newWordNat r i s ∧ t.st.c = s.st.b ∧ t.st.d = s.st.c ∧
    t.seq.ctx = s.seq.ctx ∧
    (16 * r + i < 47 → t.seq.phase = s.seq.phase ∧ t.seq.t.toNat = 16 * r + i + 1) ∧
    (16 * r + i = 47 → t.seq.phase = .ffwd ∧ t.seq.t = s.seq.t) ∧
    t.sv = s.sv ∧ t.buf = s.buf ∧ t.len = s.len ∧ t.fin = s.fin ∧ t.rsp = s.rsp ∧ t.inputs = s.inputs ∧
    t.delivered = s.delivered

/-- The sums of a feed-forward, word by word modulo 2^32 (R181). -/
def FeedForward (s : State) (q : Quad) : Prop :=
  q.a.toNat = (s.st.a.toNat + s.sv.a.toNat) % 2 ^ 32 ∧ q.b.toNat = (s.st.b.toNat + s.sv.b.toNat) % 2 ^ 32 ∧
    q.c.toNat = (s.st.c.toNat + s.sv.c.toNat) % 2 ^ 32 ∧ q.d.toNat = (s.st.d.toNat + s.sv.d.toNat) % 2 ^ 32

/-- The sequencer states of R187. -/
def unreachableSeq (q : Seq) : Prop :=
  (q.phase = .mix ∧ 48 ≤ q.t.toNat) ∨ (q.phase ≠ .idle ∧ q.ctx = .unused3) ∨ (q.phase = .pad2 ∧ q.ctx ≠ .fin1)

/-- Neither reset nor *take* happens in the next step. -/
def NoResetOrTake (s : State) : Prop :=
  ∀ p, s.inputs.head? = some p → p.rst = false ∧ (s.rsp.valid = true → p.rspReady = false)

/-- No reset happens in the next step. -/
def NoResetNow (s : State) : Prop := ∀ p, s.inputs.head? = some p → p.rst = false

/-- The host offers `w` in the next step, and nothing else. -/
def offered (s : State) (w : CmdWord) : State := { s with inputs := [Pins.offer w] }

/-- The internal micro-steps before the response, R239's table. -/
def microSteps (w : CmdWord) (s : State) : Nat :=
  match decodeCmd w with
  | .command (.update _) => if s.fin = false ∧ s.fill = 63 then 49 else 0
  | .command .finalize => if s.fin then 0 else if s.fill.toNat ≤ 55 then 49 else 99
  | _ => 0

/-- The reset state, with the host going to drive `ins`. -/
def started (ins : List Pins) : State := { State.reset with inputs := ins }

/-- The host never drives `rst` again. -/
def NoReset (ins : List Pins) : Prop := ∀ p ∈ ins, p.rst = false

/-- The word accepted in the next step, if there is one (R100). -/
def acceptedNow (s : State) : List CmdWord :=
  match s.inputs with
  | [] => []
  | p :: _ => if p.rst = false ∧ s.cmdReady = true ∧ p.cmdValid = true then [p.cmdData] else []

/-- The words accepted in the next `k` steps, in order. -/
def acceptedWords : Nat → State → List CmdWord
  | 0, _ => []
  | k + 1, s =>
    match step s with
    | .next t => acceptedNow s ++ acceptedWords k t
    | .fault _ => []
    | .refused _ => []

/-- The responses so far: those delivered, and the pending one. -/
def responsesSoFar (t : State) : List Response := t.delivered ++ if t.rsp.valid then [t.rsp.response] else []

/-- R37, for an idle state `t` after the reference state `r`. -/
def HoldsMessage (r : RefState) (t : State) : Prop :=
  t.len = BitVec.ofNat 64 (8 * r.msg.length) ∧ t.fill.toNat = r.msg.length % 64 ∧ t.fin = r.fin ∧
    (t.fin = false →
      Memory.readBytes t.buf 0 t.fill.toNat = r.msg.drop (64 * (r.msg.length / 64)) ∧
        t.st = chain iv (r.msg.take (64 * (r.msg.length / 64)))) ∧
    (t.fin = true →
      t.st = chain iv (pad r.msg) ∧
        le32Bytes t.st.a ++ le32Bytes t.st.b ++ le32Bytes t.st.c ++ le32Bytes t.st.d = md4 r.msg ∧
        Memory.readBytes t.buf 0 64 = (pad r.msg).drop ((pad r.msg).length - 64))

/-- The commands of a message's bytes: one UPDATE a byte. -/
def updateWords (m : List Byte) : List CmdWord := m.map (fun d => encode (.update d))

/-- What the host can see and what steers the core: everything but ST, SV, BUF and the LEN outside FILL (R35). -/
def sameToTheHost (s t : State) : Prop :=
  s.fill = t.fill ∧ s.fin = t.fin ∧ s.seq = t.seq ∧ s.rsp = t.rsp ∧ s.inputs = t.inputs ∧ s.delivered = t.delivered

/-- What can still be read of a message (R35; 93_implementation_defined.md I2, I3): with FIN = 1 ST; with FIN = 0 ST,
LEN and BUF below FILL, and while a block is in progress all of BUF, and SV. -/
def sameMessage (s t : State) : Prop :=
  (s.fin = true → s.st = t.st) ∧
  (s.fin = false → s.st = t.st ∧ s.len = t.len ∧ (∀ a, a < s.fill.toNat → Memory.read s.buf a = Memory.read t.buf a) ∧
    (s.seq.phase ≠ .idle → s.sv = t.sv ∧ ∀ a, a < 64 → Memory.read s.buf a = Memory.read t.buf a))

/-- The 64 bytes of BUF. -/
def bufBytes (s : State) : List Byte := Memory.readBytes s.buf 0 64

/-- ST in the middle of a block: the first `SEQ.t` mix steps, or in phase FFWD all 48, on BUF, from SV (R178, R183). -/
def MixProgress (s : State) : Prop :=
  (s.seq.phase = .mix → s.st = mixSteps (bufBytes s) (roundTable.take s.seq.t.toNat) s.sv) ∧
    (s.seq.phase = .ffwd → s.st = mixSteps (bufBytes s) roundTable s.sv)

/-- The block that is in progress after the message `m` (R151): the bytes of BUF, and the chaining value before it. -/
def BlockInProgress (m : List Byte) (s : State) : Prop :=
  (s.seq.ctx = .upd → s.sv = chain iv (m.take (m.length - 64)) ∧ bufBytes s = m.drop (m.length - 64)) ∧
    (s.seq.ctx = .fin1 → s.seq.phase ≠ .pad2 →
      s.sv = chain iv (m.take (64 * (m.length / 64))) ∧ bufBytes s = ((pad m).drop (64 * (m.length / 64))).take 64) ∧
    (s.seq.phase = .pad2 → s.st = chain iv ((pad m).take (64 * (m.length / 64 + 1)))) ∧
    (s.seq.ctx = .fin2 → s.sv = chain iv ((pad m).take (64 * (m.length / 64 + 1))) ∧
      bufBytes s = (pad m).drop (64 * (m.length / 64 + 1)))

/-- The core in state `s` stands where the reference machine in state `r` stands after the responses `rs`. While a block
is in progress, the reference machine is one response, `(OK, 0x00)`, ahead. -/
structure Simulates (r : RefState) (rs : List Response) (s : State) : Prop where
  inv : Inv s
  mixing : MixProgress s
  length : s.len = BitVec.ofNat 64 (8 * r.msg.length)
  idle : s.seq.phase = .idle → HoldsMessage r s ∧ responsesSoFar s = rs
  busy : s.seq.phase ≠ .idle → BlockInProgress r.msg s ∧ r.fin = decide (s.seq.ctx ≠ .upd) ∧ s.delivered ++ [⟨.ok, 0x00⟩] = rs

/-- The bytes of the UPDATEs in a list of command words. -/
def updateBytes (ws : List CmdWord) : List Byte :=
  ws.filterMap (fun w => match decodeCmd w with
    | .command (.update d) => some d
    | _ => none)

/-- Only UPDATE and UPDATE.E. -/
def OnlyUpdates (ws : List CmdWord) : Prop :=
  ∀ w ∈ ws, decodeCmd w = .command .updateE ∨ ∃ d, decodeCmd w = .command (.update d)

/-- Command words that leave the core where a message begins: none since reset, or INIT last. -/
def AtMessageStart (ws : List CmdWord) : Prop := ws = [] ∨ ws.getLast? = some 0x1000

end Sys2Proof.Claims

open Sys2Proof Sys2Proof.Machine Sys2Proof.Safety Sys2Proof.Claims

/-! ## Encoding -/

/-- Decode and encode agree on every instruction, with every operand (R72, R74, R82): a command through the command
decoder, a micro-operation through the sequencer's, and no micro-operation's pattern is a command. -/
def Obligations.InstructionsDecodeBackFromTheirEncoding : Prop :=
  ∀ i : Instr, decodeTable (encode i) = some i ∧ decodeTableWord 16 (encode i).toNat = some i ∧
    (i.isCommand = true → decodeCmd (encode i) = .command i) ∧
    (i.isCommand = false → decodeCmd (encode i) = .illegal ∧ decodeSeq ((encode i).extractLsb' 0 10) = .micro i)

/-- The other direction (R74): a word that decodes to a command is that command's encoding, so no two words mean the
same. -/
def Obligations.DecodedCommandsEncodeBack : Prop :=
  ∀ (w : CmdWord) (i : Instr), decodeCmd w = .command i → encode i = w ∧ i.isCommand = true ∧ WellFormed i

/-- R72: a word decodes to a command exactly where it matches that command's row, and the row's pattern is the match
column's. -/
def Obligations.CommandWordsMatchTheOpcodeMap : Prop :=
  ∀ w : CmdWord,
    (∀ i, decodeCmd w = .command i →
      ∃ r ∈ commandRows, r.mnemonic = mnemonicOf i ∧ w &&& r.mask = r.pattern) ∧
    (∀ r ∈ commandRows, w &&& r.mask = r.pattern → ∃ i, decodeCmd w = .command i ∧ mnemonicOf i = r.mnemonic)

/-- R73: the operands. -/
def Obligations.OperandsAreAssembledFromTheWord : Prop :=
  ∀ (w : CmdWord),
    (∀ d, decodeCmd w = .command (.update d) → d.toNat = w.toNat % 256 ∧ w.toNat / 256 % 2 = 1) ∧
    (decodeCmd w = .command .updateE → w.toNat % 256 = 0 ∧ w.toNat / 256 % 2 = 0) ∧
    (∀ j, decodeCmd w = .command (.rddig j) → j.toNat = w.toNat % 16) ∧
    (∀ j, decodeCmd w = .command (.rdhex j) → j.toNat = w.toNat % 32)

/-- R76: which words are illegal, and that such a word answers ILLEGAL with data `0x00` and changes nothing else. -/
def Obligations.IllegalWordsAnswerIllegal : Prop :=
  ∀ (w : CmdWord) (s : State),
    (decodeCmd w = .illegal ↔
      7 ≤ w.toNat / 4096 ∨ w.toNat / 512 % 8 ≠ 0 ∨ (w.toNat / 256 % 2 = 1 ∧ w.toNat / 4096 ≠ 2) ∨
        (w.toNat / 256 % 2 = 0 ∧
          ((w.toNat / 4096 ∈ [0, 1, 2, 3, 6] ∧ w.toNat % 256 ≠ 0) ∨ (w.toNat / 4096 = 4 ∧ w.toNat / 16 % 16 ≠ 0) ∨
            (w.toNat / 4096 = 5 ∧ w.toNat / 32 % 8 ≠ 0)))) ∧
    (decodeCmd w = .illegal → accept w s = .next { s with rsp := ⟨true, .illegal, 0x00⟩ })

/-- "no word matches two rows": the words of R75, which the spec marks as derived. -/
def Obligations.OpcodePatternsDoNotOverlap : Prop :=
  (commandRows.Pairwise fun r r' => ∀ w : CmdWord, ¬(w &&& r.mask = r.pattern ∧ w &&& r'.mask = r'.pattern)) ∧
    (microRows.Pairwise fun r r' => ∀ w : CmdWord, ¬(w &&& r.mask = r.pattern ∧ w &&& r'.mask = r'.pattern))

/-- Words written out from the patterns of R72 and R82. -/
def Obligations.WrittenWordsDecode : Prop :=
  decodeCmd 0b0000000000000000 = .command .nop ∧ decodeCmd 0b0001000000000000 = .command .init ∧
    decodeCmd 0b0010000101100001 = .command (.update 0x61) ∧ decodeCmd 0b0010000000000000 = .command .updateE ∧
    decodeCmd 0b0011000000000000 = .command .finalize ∧ decodeCmd 0b0100000000001011 = .command (.rddig 11) ∧
    decodeCmd 0b0101000000011001 = .command (.rdhex 25) ∧ decodeCmd 0b0110000000000000 = .command .rdstat ∧
    decodeSeq 0b0101000101 = .micro (.mixF .fin1 5) ∧ decodeSeq 0b1001011100 = .micro (.mixG .fin2 12) ∧
    decodeSeq 0b0001101111 = .micro (.mixH .upd 15) ∧ decodeSeq 0b0110101111 = .micro (.ffwd .fin1 47) ∧
    decodeSeq 0b0111101111 = .micro (.pad2 .fin1 47)

/-- R82: the bits of SEQ, and the micro-operation each phase and round selects. -/
def Obligations.SequencerStateSelectsTheMicroOp : Prop :=
  ∀ q : Seq,
    q.word.toNat = 256 * (ctxBits q.ctx).toNat + 64 * (phaseBits q.phase).toNat + q.t.toNat ∧
    (q.phase = .idle → decodeSeq q.word = .idle) ∧
    (q.phase = .mix → q.t.toNat < 16 → decodeSeq q.word = .micro (.mixF q.ctx (BitVec.ofNat 4 q.t.toNat))) ∧
    (q.phase = .mix → 16 ≤ q.t.toNat → q.t.toNat < 32 →
      decodeSeq q.word = .micro (.mixG q.ctx (BitVec.ofNat 4 (q.t.toNat - 16)))) ∧
    (q.phase = .mix → 32 ≤ q.t.toNat → q.t.toNat < 48 →
      decodeSeq q.word = .micro (.mixH q.ctx (BitVec.ofNat 4 (q.t.toNat - 32)))) ∧
    (q.phase = .mix → 48 ≤ q.t.toNat → decodeSeq q.word = .noRow) ∧
    (q.phase = .ffwd → decodeSeq q.word = .micro (.ffwd q.ctx q.t)) ∧
    (q.phase = .pad2 → decodeSeq q.word = .micro (.pad2 q.ctx q.t))

/-- R80 and R81 on lines already read, every form of a line: the words of each command with its operand in range, no
words for an operand out of range, and the expansions of the pseudo-instructions, with no words for a character outside
ASCII. That a text's UPDATEs are none when the text is empty, in UPDATES and in HASH, is log entry 7's DESIGN CHOICE. -/
def Obligations.AssemblerProducesTheWords : Prop :=
  (assembleOp .nop = some [0x0000] ∧ assembleOp .init = some [0x1000] ∧ assembleOp .updateE = some [0x2000] ∧
    assembleOp .finalize = some [0x3000] ∧ assembleOp .rdstat = some [0x6000]) ∧
  (∀ d, assembleOp (.update d) = if d ≤ 255 then some [0x2100 ||| BitVec.ofNat 16 d] else none) ∧
  (∀ j, assembleOp (.rddig j) = if j ≤ 15 then some [0x4000 ||| BitVec.ofNat 16 j] else none) ∧
  (∀ j, assembleOp (.rdhex j) = if j ≤ 31 then some [0x5000 ||| BitVec.ofNat 16 j] else none) ∧
  (∀ w, assembleOp (.word w) = if w ≤ 0xFFFF then some [BitVec.ofNat 16 w] else none) ∧
  assembleOp (.updates []) = some [0x2000] ∧
  (∀ bs, bs ≠ [] → assembleOp (.updates bs) =
    if ∀ b ∈ bs, b ≤ 255 then some (bs.map (fun b => 0x2100 ||| BitVec.ofNat 16 b)) else none) ∧
  (∀ cs : List Char, assembleOp (.updatesText cs) =
    if ∀ c ∈ cs, c.toNat < 128 then some (cs.map (fun c => 0x2100 ||| BitVec.ofNat 16 c.toNat)) else none) ∧
  assembleOp .digest = some ((List.range 16).map (fun j => 0x4000 ||| BitVec.ofNat 16 j)) ∧
  assembleOp .hexDigest = some ([0x3000] ++ (List.range 32).map (fun j => 0x5000 ||| BitVec.ofNat 16 j)) ∧
  (∀ cs : List Char, assembleOp (.hashText cs) =
    if ∀ c ∈ cs, c.toNat < 128 then
      some ([0x1000] ++ cs.map (fun c => 0x2100 ||| BitVec.ofNat 16 c.toNat) ++ [0x3000] ++
        (List.range 16).map (fun j => 0x4000 ||| BitVec.ofNat 16 j))
    else none)

/-! ## Commands -/

/-- R101. -/
def Obligations.NopOnlyAnswersOk : Prop :=
  ∀ s : State, exec .nop s = .next { s with rsp := ⟨true, .ok, 0x00⟩ }

/-- R102. BUF and SV are not written. -/
def Obligations.InitStartsANewMessage : Prop :=
  ∀ s : State, exec .init s = .next { s with
    st := ⟨0x67452301, 0xEFCDAB89, 0x98BADCFE, 0x10325476⟩, len := 0, fin := false, rsp := ⟨true, .ok, 0x00⟩ }

/-- R103, all three cases, with the frame: the byte at FILL and no other byte of BUF is written, LEN counts 8 modulo
2^64, and the 64th byte starts the block, without a response yet. -/
def Obligations.UpdateAbsorbsOneByte : Prop :=
  ∀ (d : Byte) (s : State),
    (s.fin = true → exec (.update d) s = .next { s with rsp := ⟨true, .errFinalized, 0x00⟩ }) ∧
    (s.fin = false → ∃ t, exec (.update d) s = .next t ∧
      Memory.read t.buf (s.len.toNat / 8 % 64) = d ∧
      (∀ a, a ≠ s.len.toNat / 8 % 64 → Memory.read t.buf a = Memory.read s.buf a) ∧
      t.len.toNat = (s.len.toNat + 8) % 2 ^ 64 ∧ t.st = s.st ∧ t.fin = s.fin ∧ t.inputs = s.inputs ∧
      t.delivered = s.delivered ∧
      (s.len.toNat / 8 % 64 = 63 → t.sv = s.st ∧ t.seq = ⟨.upd, .mix, 0⟩ ∧ t.rsp = s.rsp) ∧
      (s.len.toNat / 8 % 64 ≠ 63 → t.sv = s.sv ∧ t.seq = s.seq ∧ t.rsp = ⟨true, .ok, 0x00⟩))

/-- R104. -/
def Obligations.EmptyUpdateOnlyAnswers : Prop :=
  ∀ s : State, exec .updateE s = .next { s with rsp := ⟨true, if s.fin then .errFinalized else .ok, 0x00⟩ }

/-- R105 with R145 and R183: FINALIZE once FIN = 1 only answers; else it writes the first padded block into BUF, byte by
byte as R145 says, and starts its compression. -/
def Obligations.FinalizePadsAndStartsTheBlock : Prop :=
  ∀ s : State,
    (s.fin = true → exec .finalize s = .next { s with rsp := ⟨true, .ok, 0x00⟩ }) ∧
    (s.fin = false → ∃ t, exec .finalize s = .next t ∧
      (∀ a, a < s.fill.toNat → ¬(s.fill.toNat ≤ 55 ∧ 56 ≤ a) → Memory.read t.buf a = Memory.read s.buf a) ∧
      Memory.read t.buf s.fill.toNat = 0x80 ∧
      (∀ a, s.fill.toNat < a → a < 64 → ¬(s.fill.toNat ≤ 55 ∧ 56 ≤ a) → Memory.read t.buf a = 0x00) ∧
      (s.fill.toNat ≤ 55 → ∀ p, p < 8 → (Memory.read t.buf (56 + p)).toNat = byteValue s.len.toNat p) ∧
      (∀ a, 64 ≤ a → Memory.read t.buf a = Memory.read s.buf a) ∧
      t.sv = s.st ∧ t.seq = ⟨.fin1, .mix, 0⟩ ∧ t.st = s.st ∧ t.len = s.len ∧ t.fin = s.fin ∧ t.rsp = s.rsp ∧
      t.inputs = s.inputs ∧ t.delivered = s.delivered)

/-- R106 with R54: digest byte `j` is byte `j mod 4` of word `floor(j / 4)`, little-endian. -/
def Obligations.RddigReadsADigestByte : Prop :=
  ∀ (j : BitVec 4) (s : State),
    (s.fin = false → exec (.rddig j) s = .next { s with rsp := ⟨true, .notReady, 0x00⟩ }) ∧
    (s.fin = true → ∃ b : Byte, exec (.rddig j) s = .next { s with rsp := ⟨true, .ok, b⟩ } ∧
      b.toNat = byteValue ((wordList s.st).getD (j.toNat / 4) 0).toNat (j.toNat % 4))

/-- R107: the high nibble of digest byte `floor(j / 2)` for an even `j`, the low one for an odd `j`, as `'0'..'9'`,
`'a'..'f'`. -/
def Obligations.RdhexReadsAHexCharacter : Prop :=
  ∀ (j : BitVec 5) (s : State),
    (s.fin = false → exec (.rdhex j) s = .next { s with rsp := ⟨true, .notReady, 0x00⟩ }) ∧
    (s.fin = true → ∃ (c : Byte) (n : Nat), exec (.rdhex j) s = .next { s with rsp := ⟨true, .ok, c⟩ } ∧
      n = byteValue ((wordList s.st).getD (j.toNat / 8) 0).toNat (j.toNat / 2 % 4) / (if j.toNat % 2 = 0 then 16 else 1) % 16 ∧
      c.toNat = if n < 10 then 0x30 + n else 0x61 + (n - 10))

/-- R108 with R34: FIN at bit 0, FILL at bits 6:1, bit 7 zero. -/
def Obligations.RdstatAssemblesStatus : Prop :=
  ∀ s : State, ∃ b : Byte, exec .rdstat s = .next { s with rsp := ⟨true, .ok, b⟩ } ∧
    b.toNat = 2 * (s.len.toNat / 8 % 64) + (if s.fin then 1 else 0) ∧ b.toNat < 128

/-- R59, which the spec marks as derived from its command rules: the reads change only RSP and repeat their response,
FINALIZE is idempotent once FIN = 1, INIT is idempotent, and UPDATE appends each accepted byte once. -/
def Obligations.ReadsRepeatAndUpdatesDoNot : Prop :=
  (∀ i : Instr, (i = .nop ∨ (∃ j, i = .rddig j) ∨ (∃ j, i = .rdhex j) ∨ i = .rdstat) → ∀ s : State,
    ∃ r : Rsp, exec i s = .next { s with rsp := r } ∧ exec i { s with rsp := r } = .next { s with rsp := r }) ∧
  (∀ s t : State, s.fin = true → exec .finalize s = .next t → t = { s with rsp := t.rsp } ∧ exec .finalize t = .next t) ∧
  (∀ s t : State, exec .init s = .next t → exec .init t = .next t) ∧
  (∀ (d : Byte) (s t u : State), s.fin = false → s.fill.toNat < 62 → exec (.update d) s = .next t →
    exec (.update d) t = .next u → u.len = s.len + 16 ∧ Memory.read u.buf s.fill.toNat = d ∧
      Memory.read u.buf (s.fill.toNat + 1) = d)

/-- R79 and R78: the status codes, the response word on `rsp_data` with the code in bits 9:8 and the data in bits 7:0,
which words raise each status on an accept, and the data byte of every status but OK. -/
def Obligations.StatusesAreRaisedByTheirCauses : Prop :=
  (statusCode .ok = 0b00 ∧ statusCode .errFinalized = 0b01 ∧ statusCode .notReady = 0b10 ∧ statusCode .illegal = 0b11) ∧
  (∀ r : Response, (responseWord r).toNat = 256 * (statusCode r.status).toNat + r.data.toNat) ∧
  (∀ s : State, s.rspData = responseWord ⟨s.rsp.status, s.rsp.data⟩ ∧ s.rspValid = s.rsp.valid) ∧
  ∀ (w : CmdWord) (s : State), s.cmdReady = true → ∃ t, accept w s = .next t ∧
    ((t.rsp.valid = true ∧ t.rsp.status = .errFinalized) ↔
      s.fin = true ∧ (decodeCmd w = .command .updateE ∨ ∃ d, decodeCmd w = .command (.update d))) ∧
    ((t.rsp.valid = true ∧ t.rsp.status = .notReady) ↔
      s.fin = false ∧ ((∃ j, decodeCmd w = .command (.rddig j)) ∨ ∃ j, decodeCmd w = .command (.rdhex j))) ∧
    ((t.rsp.valid = true ∧ t.rsp.status = .illegal) ↔ decodeCmd w = .illegal) ∧
    (t.rsp.valid = true → t.rsp.status ≠ .ok → t.rsp.data = 0x00) ∧
    (t.rsp.valid = true → (∀ j, decodeCmd w ≠ .command (.rddig j)) → (∀ j, decodeCmd w ≠ .command (.rdhex j)) →
      decodeCmd w ≠ .command .rdstat → t.rsp.data = 0x00)

/-- R206, which the spec marks as derived: a command answered with a status other than OK writes RSP, nothing else. -/
def Obligations.ErrorResponsesChangeOnlyRsp : Prop :=
  ∀ (w : CmdWord) (s t : State), s.cmdReady = true → accept w s = .next t → t.rsp.valid = true → t.rsp.status ≠ .ok →
    t = { s with rsp := t.rsp }

/-! ## Micro-operations -/

/-- R178, R179 and R180 for MIX_F, MIX_G and MIX_H, in numbers: the add chain modulo 2^32, the rotate, the state
rotation, the step counter, and that nothing else changes. -/
def Obligations.MixStepsAddRotateAndShift : Prop :=
  ∀ (ctx : Ctx) (i : BitVec 4) (s : State), ctx ≠ .unused3 →
    (∃ t, exec (.mixF ctx i) s = .next t ∧ MixEffect 0 i.toNat s t) ∧
    (∃ t, exec (.mixG ctx i) s = .next t ∧ MixEffect 1 i.toNat s t) ∧
    (∃ t, exec (.mixH ctx i) s = .next t ∧ MixEffect 2 i.toNat s t)

/-- R181 and R182: FFWD adds SV to ST word by word and completes as the context says; `ctx = 3` is the fault of R182. -/
def Obligations.FfwdAddsAndCompletes : Prop :=
  ∀ (t6 : BitVec 6) (s : State), ∃ q : Quad, FeedForward s q ∧
    exec (.ffwd .upd t6) s = .next { s with st := q, seq := ⟨s.seq.ctx, .idle, s.seq.t⟩, rsp := ⟨true, .ok, 0x00⟩ } ∧
    (56 ≤ s.fill.toNat → exec (.ffwd .fin1 t6) s = .next { s with st := q, seq := ⟨s.seq.ctx, .pad2, s.seq.t⟩ }) ∧
    (s.fill.toNat < 56 → exec (.ffwd .fin1 t6) s =
      .next { s with st := q, fin := true, seq := ⟨s.seq.ctx, .idle, s.seq.t⟩, rsp := ⟨true, .ok, 0x00⟩ }) ∧
    exec (.ffwd .fin2 t6) s =
      .next { s with st := q, fin := true, seq := ⟨s.seq.ctx, .idle, s.seq.t⟩, rsp := ⟨true, .ok, 0x00⟩ } ∧
    exec (.ffwd .unused3 t6) s = .fault .unreachableCtx

/-- R147 with R53: PAD2 writes 56 zero bytes and the length field, and starts the second padded block. -/
def Obligations.Pad2WritesTheSecondBlock : Prop :=
  ∀ (t6 : BitVec 6) (s : State), ∃ t, exec (.pad2 .fin1 t6) s = .next t ∧
    (∀ a, a < 56 → Memory.read t.buf a = 0x00) ∧
    (∀ p, p < 8 → (Memory.read t.buf (56 + p)).toNat = byteValue s.len.toNat p) ∧
    (∀ a, 64 ≤ a → Memory.read t.buf a = Memory.read s.buf a) ∧
    t.sv = s.st ∧ t.seq = ⟨.fin2, .mix, 0⟩ ∧ t.st = s.st ∧ t.len = s.len ∧ t.fin = s.fin ∧ t.rsp = s.rsp ∧
    t.inputs = s.inputs ∧ t.delivered = s.delivered

/-- R170 to R172 bit by bit: F selects, G is the majority, H the parity. -/
def Obligations.RoundFunctionsBitByBit : Prop :=
  ∀ (x y z : Word) (n : Nat), n < 32 →
    (fnF x y z).getLsbD n = (if x.getLsbD n then y.getLsbD n else z.getLsbD n) ∧
    (fnG x y z).getLsbD n =
      decide (2 ≤ (x.getLsbD n).toNat + (y.getLsbD n).toNat + (z.getLsbD n).toNat) ∧
    (fnH x y z).getLsbD n = decide (((x.getLsbD n).toNat + (y.getLsbD n).toNat + (z.getLsbD n).toNat) % 2 = 1)

/-- R174 to R177, whose values the spec marks as general knowledge and whose closed forms it marks as derived: every ROM
entry is the closed form of its round and step, and no step from 48 on has one. -/
def Obligations.RoundTableHasTheClosedForms : Prop :=
  (∀ t, t < 48 → ∃ e, rom t = some e ∧ e.k = wordIndex (t / 16) (t % 16) ∧ e.s = rotationAmount (t / 16) (t % 16) ∧
    e.const.toNat = roundConstant (t / 16) ∧ 3 ≤ e.s ∧ e.s ≤ 19 ∧
    ∀ q : Quad, e.fn.apply q.b q.c q.d = roundMix (t / 16) q) ∧
  (∀ t, 48 ≤ t → rom t = none)

/-- R187 with R214: a step without reset is a fault exactly in the sequencer states R187 lists, whatever else the host
drives, also where a response could be taken; with reset it never is (R205). -/
def Obligations.UnreachableSequencerStatesFault : Prop :=
  ∀ s : State, (unreachableSeq s.seq → NoResetNow s → ∃ f, step s = .fault f) ∧
    ∀ f, step s = .fault f → unreachableSeq s.seq ∧ NoResetNow s

/-- R82's condition column with R187: an instruction that meets the condition of its row runs to a next state from every
state, and one that does not faults. -/
def Obligations.ExactlyTheWellFormedInstructionsComplete : Prop :=
  ∀ (i : Instr) (s : State), (WellFormed i → ∃ t, exec i s = .next t) ∧ (¬WellFormed i → ∃ f, exec i s = .fault f)

/-- R184, which the spec marks as derived, with R183: a block started in any state runs 48 MIX steps to phase FFWD, and
the 49th step leaves `compress(ST, BUF)` in ST before it completes. -/
def Obligations.BlockRunComputesCompress : Prop :=
  ∀ (ctx : Ctx) (s : State), ctx ≠ .unused3 → ∃ u,
    RunsTo 48 (blockStart ctx { s with inputs := [] }) u ∧ u.seq = ⟨ctx, .ffwd, 47⟩ ∧ u.buf = s.buf ∧
    step u = complete ctx { s with
      inputs := [], sv := s.st, seq := ⟨ctx, .ffwd, 47⟩, st := compress s.st (Memory.readBytes s.buf 0 64) }

/-! ## Steps and ports -/

/-- R110: when the host offers a word the core can accept, the step is the meaning of the command it decodes to, or the
ILLEGAL response. That the host's offer is a sample of `inputs` is the model's form (log entry 1). -/
def Obligations.AcceptedCommandIsRun : Prop :=
  ∀ (s : State) (p : Pins) (rest : List Pins), s.inputs = p :: rest → p.rst = false → s.cmdReady = true →
    p.cmdValid = true →
    (∀ i, decodeCmd p.cmdData = .command i → step s = exec i { s with inputs := rest }) ∧
    (decodeCmd p.cmdData = .illegal → step s = .next { s with inputs := rest, rsp := ⟨true, .illegal, 0x00⟩ })

/-- R186: when the core is busy, the step is the meaning of the micro-operation SEQ decodes to. -/
def Obligations.BusyStepRunsTheMicroOp : Prop :=
  ∀ (s : State) (i : Instr), NoResetOrTake s → decodeSeq s.seq.word = .micro i →
    step s = exec i { s with inputs := s.inputs.tail }

/-- Placing an instruction's encoding (`withFetchWord`, the model's own, log entry 6) makes the very next step run
exactly it. -/
def Obligations.PlacedInstructionRunsNext : Prop :=
  ∀ (i : Instr) (s : State), ∃ u, step (s.withFetchWord 16 (encode i).toNat) = exec i u ∧ u.st = s.st ∧ u.sv = s.sv ∧
    u.buf = s.buf ∧ u.len = s.len ∧ u.fin = s.fin ∧ u.inputs = s.inputs ∧ u.delivered = s.delivered ∧
    (i.isCommand = false → u.seq.word.toNat = (encode i).toNat)

/-- R230: reset, from every state, under every drive of the other ports, leaves the core at the values of R36. That what
the host has taken and what it will drive stay with the host is the model's choice (log entry 2). -/
def Obligations.ResetLoadsEveryResetValue : Prop :=
  ∀ (s : State) (p : Pins) (rest : List Pins), s.inputs = p :: rest → p.rst = true →
    step s = .next
      { st := ⟨0x67452301, 0xEFCDAB89, 0x98BADCFE, 0x10325476⟩, sv := ⟨0, 0, 0, 0⟩, buf := [], len := 0, fin := false,
        seq := ⟨.upd, .idle, 0⟩, rsp := ⟨false, .ok, 0⟩, inputs := rest, delivered := s.delivered }

/-- R36 on the reset state; `inputs` and `delivered` are the model's own (log entry 2) and not named. -/
def Obligations.ResetStateHasTheSpecsValues : Prop :=
  State.reset.st = ⟨0x67452301, 0xEFCDAB89, 0x98BADCFE, 0x10325476⟩ ∧ State.reset.sv = ⟨0, 0, 0, 0⟩ ∧
    (∀ a, Memory.read State.reset.buf a = 0x00) ∧ State.reset.len = 0 ∧ State.reset.fin = false ∧
    State.reset.seq = ⟨.upd, .idle, 0⟩ ∧ State.reset.rsp = ⟨false, .ok, 0⟩ ∧ State.reset.statusByte = 0x00 ∧
    State.reset.cmdReady = true

/-- R109: *take* delivers the pending response and clears `RSP.valid`, nothing else; it needs a pending response. The
states of R187 fault instead (`UnreachableSequencerStatesFault`). -/
def Obligations.TakeDeliversThePendingResponse : Prop :=
  ∀ (s : State) (p : Pins) (rest : List Pins), s.inputs = p :: rest → p.rst = false → p.rspReady = true →
    s.rsp.valid = true → ¬unreachableSeq s.seq → step s = .next { s with
      rsp := { s.rsp with valid := false }, inputs := rest, delivered := s.delivered ++ [⟨s.rsp.status, s.rsp.data⟩] }

/-- R234 with R29 and R100: while `cmd_ready = 0` an offered word has no effect, whatever it is. -/
def Obligations.OffersWaitUntilReady : Prop :=
  ∀ (s : State) (p : Pins) (rest : List Pins) (v : Bool) (w : CmdWord),
    (s.seq.phase ≠ .idle ∨ s.rsp.valid = true) →
    step { s with inputs := { p with cmdValid := v, cmdData := w } :: rest } = step { s with inputs := p :: rest }

/-- R235, in the model's form of "a stuck state with no step" (log entry 3): an idle core whose response the host never
takes never changes, whatever else the host drives, and when the host stops there is no step at all. -/
def Obligations.UntakenResponseLeavesTheCoreStuck : Prop :=
  ∀ s : State, s.seq.phase = .idle → s.rsp.valid = true → (∀ p ∈ s.inputs, p.rst = false ∧ p.rspReady = false) →
    RunsTo s.inputs.length s { s with inputs := [] } ∧ step { s with inputs := [] } = .refused .noStepEnabled

/-- R186: an internal step never waits for the host. In a busy state of the invariant the step does not depend on what
the host drives, reset apart. -/
def Obligations.BusyCoreDoesNotWaitForTheHost : Prop :=
  ∀ (s : State) (p p' : Pins) (rest : List Pins), Inv s → s.seq.phase ≠ .idle → p.rst = false → p'.rst = false →
    step { s with inputs := p :: rest } = step { s with inputs := p' :: rest } ∧
      ∃ t, step { s with inputs := p :: rest } = .next t

/-! ## The whole machine -/

/-- The invariant at reset. -/
def Obligations.InvariantHoldsAtReset : Prop := Inv State.reset

/-- Every step keeps the invariant (what R25, R32, R186 and R182 say in prose, in the model's form): BUF canonical, LEN
a multiple of 8, the sequencer at values rules write, a response pending only while idle, FIN set only while idle, and
the padded blocks as FILL says. -/
def Obligations.EveryStepKeepsTheInvariant : Prop := ∀ s t : State, Inv s → step s = .next t → Inv t

/-- R214 with R187: no run from a state of the invariant ends in a fault. -/
def Obligations.InvariantStatesNeverFault : Prop := ∀ s : State, Inv s → FaultFree s

/-- R38, which the spec marks as derived: while FIN = 1, any number of steps without reset and without an accepted INIT
leaves ST, BUF, LEN and FIN as they are. The host may offer any other words. -/
def Obligations.FinalizedDigestIsFrozen : Prop :=
  ∀ (k : Nat) (s t : State), Inv s → s.fin = true → NoReset s.inputs → (∀ p ∈ s.inputs, p.cmdValid = true → p.cmdData ≠ 0x1000) →
    RunsTo k s t → t.st = s.st ∧ t.buf = s.buf ∧ t.len = s.len ∧ t.fin = true

/-- The "written only by" sentences of R20 to R23: every step that changes a register is one of the steps its rule
names. -/
def Obligations.RegistersHaveOnlyTheirWriters : Prop :=
  ∀ s t : State, step s = .next t → (∀ p, s.inputs.head? = some p → p.rst = false) →
    (t.st ≠ s.st → s.seq.phase = .mix ∨ s.seq.phase = .ffwd ∨ acceptedNow s = [0x1000]) ∧
    (t.sv ≠ s.sv → t.sv = s.st ∧ t.seq.phase = .mix ∧ t.seq.t = 0) ∧
    (t.buf ≠ s.buf → s.seq.phase = .pad2 ∨ acceptedNow s = [0x3000] ∨ ∃ d : Byte, acceptedNow s = [0x21#8 ++ d]) ∧
    (t.len ≠ s.len → acceptedNow s = [0x1000] ∨ ∃ d : Byte, acceptedNow s = [0x21#8 ++ d]) ∧
    (t.delivered ≠ s.delivered → s.rsp.valid = true ∧ t.rsp.valid = false)

/-- R182 and R26: FIN rises only in the FFWD step that ends the last padded block, in the same step as FINALIZE's
response and the return to IDLE; it falls only by reset and INIT. -/
def Obligations.FinRisesOnlyWithTheLastBlock : Prop :=
  ∀ s t : State, step s = .next t →
    (s.fin = false → t.fin = true → s.seq.phase = .ffwd ∧ t.seq.phase = .idle ∧ t.rsp = ⟨true, .ok, 0x00⟩ ∧
      (s.seq.ctx = .fin2 ∨ (s.seq.ctx = .fin1 ∧ s.fill.toNat < 56))) ∧
    (s.fin = true → t.fin = false → (∃ p, s.inputs.head? = some p ∧ p.rst = true) ∨ acceptedNow s = [0x1000])

/-- R35: two cores that agree on what the host can see, and with FIN = 1 on ST, stay so for any number of steps: no
response, no `cmd_ready` and no moment of either shows SV, BUF or the rest of LEN, nor ST while FIN = 0. A run that
begins with FIN = 1 (idle, as in every state of `Inv`) is free, INIT and the messages after it included. A run that
begins with FIN = 0 ends when FIN rises, since then ST "becomes observable". -/
def Obligations.HiddenStateStaysHidden : Prop :=
  ∀ (k : Nat) (s s' t : State), sameToTheHost s s' → (s.fin = true → s.seq.phase = .idle ∧ s.st = s'.st) → RunsTo k s t →
    (s.fin = false → ∀ m u, m < k → RunsTo m s u → u.fin = false) →
    ∃ t', RunsTo k s' t' ∧ sameToTheHost t t' ∧ (s.fin = true → t.fin = true → t.st = t'.st)

/-- R35 and R36 with I2 and I3 of 93_implementation_defined.md, for runs without any end: two cores that hold the same
message and otherwise agree on what the host can see stay so for any number of steps, through FINALIZE and the reads,
whatever BUF holds at and after FILL and SV while idle, and with FIN = 1 whatever BUF, SV and LEN outside FILL hold. -/
def Obligations.UnusedStorageNeverShows : Prop :=
  ∀ (k : Nat) (s s' t : State), sameToTheHost s s' → sameMessage s s' → (s.fin = true → s.seq.phase = .idle) →
    RunsTo k s t → ∃ t', RunsTo k s' t' ∧ sameToTheHost t t' ∧ sameMessage t t'

/-- R239, which the spec marks as derived and as timing: a word accepted in a ready state of the invariant is answered
after exactly the micro-steps of the table, the core idle again, and no response stands before. By R240 that is at most
99. -/
def Obligations.CommandsTakeTheirMicroSteps : Prop :=
  ∀ (w : CmdWord) (s : State), Inv s → s.cmdReady = true → microSteps w s ≤ 99 ∧
    (∃ t, RunsTo (1 + microSteps w s) (offered s w) t ∧ t.rsp.valid = true ∧ t.seq.phase = .idle) ∧
    (∀ m u, m < 1 + microSteps w s → RunsTo m (offered s w) u → u.rsp.valid = false)

/-- R142: the padding makes the length 56 modulo 64 with the least number of zero bytes, then come the eight bytes of
the bit length, little-endian. -/
def Obligations.PaddingUsesTheFewestZeros : Prop :=
  ∀ m : List Byte, ∃ z,
    pad m = m ++ [0x80] ++ List.replicate z 0x00 ++
      (List.range 8).map (fun p => BitVec.ofNat 8 (byteValue (8 * m.length % 2 ^ 64) p)) ∧
    (m.length + 1 + z) % 64 = 56 ∧ (∀ z', (m.length + 1 + z') % 64 = 56 → z ≤ z') ∧ z ≤ 63

/-- R143, which the spec marks as derived: the padded message is `nblk(L)` blocks, a positive multiple of 64 bytes, and
the padding has 9 to 72 bytes. -/
def Obligations.PaddedLengthIsWholeBlocks : Prop :=
  ∀ m : List Byte, (pad m).length = 64 * blockCount m.length ∧ 0 < blockCount m.length ∧
    m.length + 9 ≤ (pad m).length ∧ (pad m).length ≤ m.length + 72

/-- R184 as an invariant of one step: through every step of a block, ST is the mix steps done so far on BUF, from SV. -/
def Obligations.EveryStepKeepsTheMixProgress : Prop :=
  ∀ s t : State, MixProgress s → step s = .next t → MixProgress t

/-- The reset state simulates the reference machine's reset state, with no response yet. -/
def Obligations.ResetSimulatesTheReference : Prop :=
  ∀ ins : List Pins, Simulates RefState.reset [] (started ins)

/-- R37, R111 and R151, which the spec marks as derived, as an invariant of one step, busy phases included: a step that
accepts a word is the reference machine's step with its response, every other step keeps the reference state, and reset
returns to the reference machine's reset state with the responses delivered so far. -/
def Obligations.EveryStepKeepsTheSimulation : Prop :=
  ∀ (r : RefState) (rs : List Response) (s t : State), Simulates r rs s → step s = .next t →
    (NoResetNow s → Simulates (refAfter r (acceptedNow s)) (rs ++ refResponses r (acceptedNow s)) t) ∧
    (¬NoResetNow s → Simulates RefState.reset t.delivered t)

/-- R37, which the spec marks as derived: in every idle state of every run from reset, whatever the host drives but a
further reset, the core holds the message absorbed so far. -/
def Obligations.IdleStatesHoldTheMessage : Prop :=
  ∀ (ins : List Pins) (k : Nat) (t : State), NoReset ins → RunsTo k (started ins) t → t.seq.phase = .idle →
    HoldsMessage (refAfter RefState.reset (acceptedWords k (started ins))) t

/-- R111, which the spec marks as derived: in every idle state of every run from reset, the responses are, one for one,
those of the reference machine to the words accepted. -/
def Obligations.ResponsesEqualTheReferenceMachine : Prop :=
  ∀ (ins : List Pins) (k : Nat) (t : State), NoReset ins → RunsTo k (started ins) t → t.seq.phase = .idle →
    responsesSoFar t = refResponses RefState.reset (acceptedWords k (started ins))

/-- R112, which the spec marks as derived: two runs that accept the same words give the same responses, whenever the
host offers and takes. -/
def Obligations.ResponsesDependOnTheAcceptedWordsOnly : Prop :=
  ∀ (ins ins' : List Pins) (k k' : Nat) (t t' : State), NoReset ins → NoReset ins' → RunsTo k (started ins) t →
    RunsTo k' (started ins') t' → t.seq.phase = .idle → t'.seq.phase = .idle →
    acceptedWords k (started ins) = acceptedWords k' (started ins') → responsesSoFar t = responsesSoFar t'

/-- R65, which the spec marks as derived: chunk invariance. Two runs that absorb the same bytes since reset or INIT,
with any UPDATE.E between, leave the same ST, LEN and FIN, and the same message bytes in BUF. -/
def Obligations.ChunkingDoesNotMatter : Prop :=
  ∀ (ins ins' : List Pins) (k k' : Nat) (t t' : State) (pre pre' ws ws' : List CmdWord), NoReset ins → NoReset ins' →
    RunsTo k (started ins) t → RunsTo k' (started ins') t' → t.seq.phase = .idle → t'.seq.phase = .idle →
    acceptedWords k (started ins) = pre ++ ws → acceptedWords k' (started ins') = pre' ++ ws' →
    AtMessageStart pre → AtMessageStart pre' → OnlyUpdates ws → OnlyUpdates ws' → updateBytes ws = updateBytes ws' →
    t.st = t'.st ∧ t.len = t'.len ∧ t.fin = t'.fin ∧
      ∀ a, a < t.fill.toNat → Memory.read t.buf a = Memory.read t'.buf a

/-- R233, which the spec marks as derived, with R81: the program that hashes a message, driven as R81 says with the 101
samples a word of `driveWord` (log entry 1), runs to its end from reset and delivers OK to each command and then the
digest `MD4(m)`, as bytes with RDDIG or as characters with RDHEX. -/
def Obligations.HashProgramDeliversTheDigest : Prop :=
  ∀ m : List Byte,
    (∃ t, RunsTo (101 * (m.length + 18))
        (started (driveProgram ([0x1000] ++ updateWords m ++ [0x3000] ++ digestWords))) t ∧
      t.delivered = List.replicate (m.length + 2) ⟨.ok, 0x00⟩ ++ (md4 m).map (fun b => ⟨.ok, b⟩)) ∧
    (∃ t, RunsTo (101 * (m.length + 34))
        (started (driveProgram ([0x1000] ++ updateWords m ++ [0x3000] ++ hexReadWords))) t ∧
      t.delivered = List.replicate (m.length + 2) ⟨.ok, 0x00⟩ ++ (md4Hex m).map (fun b => ⟨.ok, b⟩))
end

