-- ==== Sys2Proof/Laws/Encoding.lean ====
section
/-! SUPPORT. The sequencer word and its decoder, phase by phase. -/
namespace Sys2Proof.Machine

@[simp] theorem ctxOfBits_ctxBits (c : Ctx) : ctxOfBits (ctxBits c) = c := by cases c <;> rfl

@[simp] theorem phaseOfBits_phaseBits (p : Phase) : phaseOfBits (phaseBits p) = p := by cases p <;> rfl

/-! ## The fields of `seqWord` -/

theorem seqWord_t (c : Ctx) (p : BitVec 2) (t : BitVec 6) : seqTField (seqWord c p t) = t := by
  unfold seqTField seqWord
  ext i hi
  simp only [BitVec.getElem_extractLsb', BitVec.getLsbD_append]
  simp [hi, BitVec.getLsbD_eq_getElem]

theorem seqWord_phase (c : Ctx) (p : BitVec 2) (t : BitVec 6) : seqPhaseField (seqWord c p t) = p := by
  revert t p
  cases c <;> decide

theorem seqWord_ctx (c : Ctx) (p : BitVec 2) (t : BitVec 6) : seqCtxField (seqWord c p t) = c := by
  revert t p
  cases c <;> decide

theorem seqWord_round (c : Ctx) (p : BitVec 2) (t : BitVec 6) :
    seqRoundField (seqWord c p t) = t.extractLsb' 4 2 := by
  revert t p
  cases c <;> decide

theorem seqWord_step (c : Ctx) (p : BitVec 2) (t : BitVec 6) :
    seqStepField (seqWord c p t) = t.extractLsb' 0 4 := by
  revert t p
  cases c <;> decide

/-- SEQ's word and SEQ say the same (R82). -/
@[simp] theorem Seq.ofWord_word (q : Seq) : Seq.ofWord q.word = q := by
  unfold Seq.ofWord Seq.word
  rw [seqWord_ctx, seqWord_phase, seqWord_t, phaseOfBits_phaseBits]

/-! ## What the sequencer decodes to, by phase (R82) -/

theorem decodeSeq_idle (c : Ctx) (t : BitVec 6) : decodeSeq (Seq.word ⟨c, .idle, t⟩) = .idle := by
  simp [decodeSeq, Seq.word, seqWord_phase, phaseBits]

theorem decodeSeq_ffwd (c : Ctx) (t : BitVec 6) : decodeSeq (Seq.word ⟨c, .ffwd, t⟩) = .micro (.ffwd c t) := by
  simp [decodeSeq, Seq.word, seqWord_phase, seqWord_ctx, seqWord_t, phaseBits]

theorem decodeSeq_pad2 (c : Ctx) (t : BitVec 6) : decodeSeq (Seq.word ⟨c, .pad2, t⟩) = .micro (.pad2 c t) := by
  simp [decodeSeq, Seq.word, seqWord_phase, seqWord_ctx, seqWord_t, phaseBits]

theorem decodeSeq_mix (c : Ctx) (t : BitVec 6) :
    decodeSeq (Seq.word ⟨c, .mix, t⟩) =
      if t.extractLsb' 4 2 = 0 then .micro (.mixF c (t.extractLsb' 0 4))
      else if t.extractLsb' 4 2 = 1 then .micro (.mixG c (t.extractLsb' 0 4))
      else if t.extractLsb' 4 2 = 2 then .micro (.mixH c (t.extractLsb' 0 4))
      else .noRow := by
  simp [decodeSeq, decodeMix, Seq.word, seqWord_phase, seqWord_ctx, seqWord_round, seqWord_step, phaseBits]

/-- A step number is its round and its step within the round (R27). -/
theorem step_of_round (t : BitVec 6) (r : BitVec 2) (h : t.extractLsb' 4 2 = r) : r ++ t.extractLsb' 0 4 = t := by
  subst h
  revert t
  decide

theorem round_of_step (t : BitVec 6) :
    (t.toNat < 16 ↔ t.extractLsb' 4 2 = 0) ∧ (16 ≤ t.toNat ∧ t.toNat < 32 ↔ t.extractLsb' 4 2 = 1) ∧
      (32 ≤ t.toNat ∧ t.toNat < 48 ↔ t.extractLsb' 4 2 = 2) ∧ (48 ≤ t.toNat ↔ t.extractLsb' 4 2 = 3) := by
  revert t
  decide

/-! ## Command words -/

/-- The fields of a command word as numbers (R70). -/
theorem fields_toNat (w : CmdWord) :
    (opcField w).toNat = w.toNat / 4096 ∧ (rsvField w).toNat = w.toNat / 512 % 8 ∧
      (vField w).toNat = w.toNat / 256 % 2 ∧ (immField w).toNat = w.toNat % 256 := by
  simp [opcField, rsvField, vField, immField, Nat.shiftRight_eq_div_pow]
  omega

/-- The encodings with an operand as numbers (R80: `0x2100 OR d`, `0x4000 OR j`, `0x5000 OR j`). -/
theorem encode_update_toNat (d : Byte) : (encode (.update d)).toNat = 0x2100 + d.toNat := by
  revert d
  decide

theorem encode_rddig_toNat (j : BitVec 4) : (encode (.rddig j)).toNat = 0x4000 + j.toNat := by
  revert j
  decide

theorem encode_rdhex_toNat (j : BitVec 5) : (encode (.rdhex j)).toNat = 0x5000 + j.toNat := by
  revert j
  decide

theorem plainCommand_command {i j : Instr} {w : CmdWord} (h : plainCommand i w = .command j) :
    i = j ∧ vField w = 0 ∧ immField w = 0 := by
  unfold plainCommand at h
  split at h
  next hc => exact ⟨by injection h, hc⟩
  next => cases h

/-- What a command word's decoding says about its fields (R74). -/
theorem decodeCmd_cases {w : CmdWord} {i : Instr} (h : decodeCmd w = .command i) :
    rsvField w = 0 ∧
      ((opcField w = 0 ∧ i = .nop ∧ vField w = 0 ∧ immField w = 0) ∨
        (opcField w = 1 ∧ i = .init ∧ vField w = 0 ∧ immField w = 0) ∨
        (opcField w = 2 ∧ i = .update (immField w) ∧ vField w = 1) ∨
        (opcField w = 2 ∧ i = .updateE ∧ vField w = 0 ∧ immField w = 0) ∨
        (opcField w = 3 ∧ i = .finalize ∧ vField w = 0 ∧ immField w = 0) ∨
        (opcField w = 4 ∧ i = .rddig ((immField w).extractLsb' 0 4) ∧ vField w = 0 ∧ (immField w).extractLsb' 4 4 = 0) ∨
        (opcField w = 5 ∧ i = .rdhex ((immField w).extractLsb' 0 5) ∧ vField w = 0 ∧ (immField w).extractLsb' 5 3 = 0) ∨
        (opcField w = 6 ∧ i = .rdstat ∧ vField w = 0 ∧ immField w = 0)) := by
  unfold decodeCmd at h
  split at h
  · cases h
  next hr =>
    refine ⟨by simpa using hr, ?_⟩
    split at h
    next ho => obtain ⟨rfl, hv⟩ := plainCommand_command h; exact .inl ⟨ho, rfl, hv⟩
    split at h
    next ho => obtain ⟨rfl, hv⟩ := plainCommand_command h; exact .inr (.inl ⟨ho, rfl, hv⟩)
    split at h
    next ho =>
      unfold decodeUpdate at h
      split at h
      next hv =>
        injection h with h
        exact .inr (.inr (.inl ⟨ho, h.symm, hv⟩))
      next => obtain ⟨rfl, hv⟩ := plainCommand_command h; exact .inr (.inr (.inr (.inl ⟨ho, rfl, hv⟩)))
    split at h
    next ho => obtain ⟨rfl, hv⟩ := plainCommand_command h; exact .inr (.inr (.inr (.inr (.inl ⟨ho, rfl, hv⟩))))
    split at h
    next ho =>
      unfold decodeRddig at h
      split at h
      next hv =>
        injection h with h
        exact .inr (.inr (.inr (.inr (.inr (.inl ⟨ho, h.symm, hv⟩)))))
      next => cases h
    split at h
    next ho =>
      unfold decodeRdhex at h
      split at h
      next hv =>
        injection h with h
        exact .inr (.inr (.inr (.inr (.inr (.inr (.inl ⟨ho, h.symm, hv⟩))))))
      next => cases h
    split at h
    next ho =>
      obtain ⟨rfl, hv⟩ := plainCommand_command h
      exact .inr (.inr (.inr (.inr (.inr (.inr (.inr ⟨ho, rfl, hv⟩))))))
    next => cases h

/-- No command word decodes to a micro-operation (R82). -/
theorem decodeCmd_isCommand (w : CmdWord) (i : Instr) (hi : i.isCommand = false) : decodeCmd w ≠ .command i := by
  intro h
  obtain ⟨-, h⟩ := decodeCmd_cases h
  rcases h with ⟨-, rfl, -⟩ | ⟨-, rfl, -⟩ | ⟨-, rfl, -⟩ | ⟨-, rfl, -⟩ | ⟨-, rfl, -⟩ | ⟨-, rfl, -⟩ | ⟨-, rfl, -⟩ | ⟨-, rfl, -⟩ <;>
    simp [Instr.isCommand] at hi

end Sys2Proof.Machine
end

