-- ==== Sys2Proof/Laws/Memory.lean ====
section
/-! SUPPORT. The laws of BUF: a read after a write, the canonical form, and what the padding writes leave. -/
namespace Sys2Proof.Machine

/-! ## One byte -/

@[simp] theorem read_nil (a : Nat) : Memory.read [] a = 0 := rfl

theorem read_erase (m : Memory) (a b : Nat) :
    Memory.read (Memory.erase m a) b = if b = a then 0 else Memory.read m b := by
  induction m with
  | nil => simp [Memory.erase]
  | cons c m ih =>
    by_cases hca : c.1 = a
    · simp only [Memory.erase, hca, if_true, ih, Memory.read]
      by_cases hb : b = a
      · simp [hb]
      · simp [hb, Ne.symm hb]
    · simp only [Memory.erase, hca, if_false, Memory.read, ih]
      by_cases hcb : c.1 = b
      · subst hcb; simp [hca]
      · simp [hcb]

theorem read_insert (m : Memory) (a b : Nat) (v : Byte) (h : Memory.read m a = 0 ∧ ∀ c ∈ m, c.1 ≠ a) :
    Memory.read (Memory.insert m a v) b = if b = a then v else Memory.read m b := by
  induction m with
  | nil =>
    by_cases hb : b = a
    · simp [Memory.insert, Memory.read, hb]
    · simp [Memory.insert, Memory.read, hb, Ne.symm hb]
  | cons c m ih =>
    have hc : c.1 ≠ a := h.2 c (by simp)
    have hm : Memory.read m a = 0 ∧ ∀ c ∈ m, c.1 ≠ a :=
      ⟨by simpa [Memory.read, hc] using h.1, fun c' h' => h.2 c' (by simp [h'])⟩
    by_cases hlt : a < c.1
    · by_cases hb : b = a
      · simp [Memory.insert, hlt, Memory.read, hb]
      · simp [Memory.insert, hlt, Memory.read, hb, Ne.symm hb]
    · simp only [Memory.insert, hlt, if_false, Memory.read, ih hm]
      by_cases hcb : c.1 = b
      · subst hcb; simp [hc]
      · simp [hcb]

theorem erase_not_mem (m : Memory) (a : Nat) : ∀ c ∈ Memory.erase m a, c.1 ≠ a := by
  induction m with
  | nil => simp [Memory.erase]
  | cons c m ih =>
    by_cases hc : c.1 = a
    · simpa [Memory.erase, hc] using ih
    · simp only [Memory.erase, hc, if_false, List.mem_cons]
      rintro c' (rfl | h)
      · exact hc
      · exact ih c' h

/-- A read after a write: the byte written at that index, every other byte as before. No premise on the memory. -/
theorem read_write (m : Memory) (a b : Nat) (v : Byte) :
    Memory.read (Memory.write m a v) b = if b = a then v else Memory.read m b := by
  by_cases hv : v = 0
  · simp [Memory.write, hv, read_erase]
  · rw [Memory.write, if_neg hv, read_insert _ _ _ _ ⟨by simp [read_erase], erase_not_mem m a⟩, read_erase]
    by_cases hb : b = a <;> simp [hb]

/-! ## The canonical form -/

theorem erase_subset (m : Memory) (a : Nat) : (Memory.erase m a).Sublist m := by
  induction m with
  | nil => simp [Memory.erase]
  | cons c m ih =>
    by_cases hc : c.1 = a
    · simpa [Memory.erase, hc] using ih.trans (List.sublist_cons_self c m)
    · simpa [Memory.erase, hc] using ih.cons_cons c

theorem wf_erase {m : Memory} (h : Memory.wf m) (a : Nat) : Memory.wf (Memory.erase m a) :=
  ⟨h.1.sublist (erase_subset m a), fun c hc => h.2 c ((erase_subset m a).subset hc)⟩

theorem mem_insert {m : Memory} {a : Nat} {v : Byte} {c : Host.Cell} :
    c ∈ Memory.insert m a v ↔ c = (a, v) ∨ c ∈ m := by
  induction m with
  | nil => simp [Memory.insert]
  | cons d m ih =>
    by_cases hlt : a < d.1
    · simp [Memory.insert, hlt]
    · simp only [Memory.insert, hlt, if_false, List.mem_cons, ih]
      tauto

theorem wf_insert {m : Memory} (h : Memory.wf m) {a : Nat} {v : Byte} (ha : a < 64) (hv : v ≠ 0)
    (hm : ∀ c ∈ m, c.1 ≠ a) : Memory.wf (Memory.insert m a v) := by
  refine ⟨?_, fun c hc => ?_⟩
  · induction m with
    | nil => simp [Memory.insert]
    | cons d m ih =>
      have hd := List.pairwise_cons.1 h.1
      by_cases hlt : a < d.1
      · simp only [Memory.insert, hlt, if_true, List.pairwise_cons, List.mem_cons]
        refine ⟨?_, hd.1, hd.2⟩
        rintro c (rfl | hc)
        · exact hlt
        · exact hlt.trans (hd.1 c hc)
      · have hne : d.1 ≠ a := hm d (by simp)
        simp only [Memory.insert, hlt, if_false, List.pairwise_cons]
        refine ⟨fun c hc => ?_, ih ⟨hd.2, fun c hc => h.2 c (by simp [hc])⟩ fun c hc => hm c (by simp [hc])⟩
        rcases mem_insert.1 hc with rfl | hc
        · show d.1 < a
          omega
        · exact hd.1 c hc
  · rcases mem_insert.1 hc with rfl | hc
    · exact ⟨ha, hv⟩
    · exact h.2 c hc

/-- A write inside the buffer keeps the canonical form. -/
theorem wf_write {m : Memory} (h : Memory.wf m) {a : Nat} (ha : a < 64) (v : Byte) : Memory.wf (Memory.write m a v) := by
  by_cases hv : v = 0
  · simpa [Memory.write, hv] using wf_erase h a
  · rw [Memory.write, if_neg hv]
    exact wf_insert (wf_erase h a) ha hv (erase_not_mem m a)

theorem wf_nil : Memory.wf [] := by simp [Memory.wf]

/-! ## Several bytes -/

theorem wf_writeBytes (vs : List Byte) : ∀ {m : Memory} {a : Nat}, Memory.wf m → a + vs.length ≤ 64 →
    Memory.wf (Memory.writeBytes m a vs) := by
  induction vs with
  | nil => intro m a h _; exact h
  | cons v vs ih =>
    intro m a h hle
    simp only [List.length_cons] at hle
    exact ih (wf_write h (by omega) v) (by omega)

/-- What `MemWrite` leaves: the bytes written in their range, every other byte as before. -/
theorem read_writeBytes (vs : List Byte) : ∀ (m : Memory) (a b : Nat),
    Memory.read (Memory.writeBytes m a vs) b =
      if a ≤ b ∧ b < a + vs.length then vs.getD (b - a) 0 else Memory.read m b := by
  induction vs with
  | nil =>
    intro m a b
    rw [if_neg (by simp)]
    rfl
  | cons v vs ih =>
    intro m a b
    simp only [Memory.writeBytes, ih, read_write, List.length_cons]
    by_cases hba : b = a
    · subst hba; simp
    · by_cases hin : a ≤ b ∧ b < a + (vs.length + 1)
      · have h1 : a + 1 ≤ b ∧ b < a + 1 + vs.length := by omega
        have h2 : b - a = (b - (a + 1)) + 1 := by omega
        rw [if_pos h1, if_pos hin, h2, List.getD_cons_succ]
      · have h1 : ¬(a + 1 ≤ b ∧ b < a + 1 + vs.length) := by omega
        rw [if_neg h1, if_neg hin, if_neg hba]

theorem length_readBytes (m : Memory) : ∀ a n, (Memory.readBytes m a n).length = n
  | _, 0 => rfl
  | a, n + 1 => by simp [Memory.readBytes, length_readBytes m (a + 1) n]

theorem getD_readBytes (m : Memory) : ∀ (n a i : Nat), i < n →
    (Memory.readBytes m a n).getD i 0 = Memory.read m (a + i)
  | 0, _, _, h => by omega
  | n + 1, a, 0, _ => by simp [Memory.readBytes]
  | n + 1, a, i + 1, h => by
    rw [Memory.readBytes, List.getD_cons_succ, getD_readBytes m n (a + 1) i (by omega)]
    congr 1
    omega

@[simp] theorem length_le64Bytes (v : BitVec 64) : (le64Bytes v).length = 8 := rfl
@[simp] theorem length_le32Bytes (w : Word) : (le32Bytes w).length = 4 := rfl

theorem read_fillZero (m : Memory) (a n b : Nat) :
    Memory.read (Memory.fillZero m a n) b = if a ≤ b ∧ b < a + n then 0 else Memory.read m b := by
  rw [Memory.fillZero, read_writeBytes, List.length_replicate]
  split
  · simp only [List.getD_eq_getElem?_getD, List.getElem?_replicate]; split <;> rfl
  · rfl

theorem read_writeLength (m : Memory) (len : BitVec 64) (b : Nat) :
    Memory.read (Memory.writeLength m len) b =
      if 56 ≤ b ∧ b < 64 then (le64Bytes len).getD (b - 56) 0 else Memory.read m b := by
  rw [Memory.writeLength, read_writeBytes]
  rfl

/-- What PAD1 leaves in BUF (R145), for `f` in `0..63`: the message bytes below `f`, `0x80` at `f`, then zeros, and the
length field in bytes 56 to 63 when it fits. -/
theorem read_pad1Buf (m : Memory) (f : Nat) (len : BitVec 64) (b : Nat) (hf : f < 64) (hb : b < 64) :
    Memory.read (pad1Buf m f len) b =
      if f ≤ 55 ∧ 56 ≤ b then (le64Bytes len).getD (b - 56) 0
      else if b < f then Memory.read m b else if b = f then 0x80 else 0 := by
  unfold pad1Buf
  dsimp only
  by_cases h55 : f ≤ 55
  · simp only [h55, if_true, true_and, read_writeLength, read_fillZero, read_write]
    split_ifs <;> first | rfl | (exfalso; omega)
  · simp only [h55, if_false, false_and, read_fillZero, read_write]
    split_ifs <;> first | rfl | (exfalso; omega)

/-- What PAD2 leaves in BUF (R147): zeros, then the length field. -/
theorem read_pad2Buf (m : Memory) (len : BitVec 64) (b : Nat) (hb : b < 64) :
    Memory.read (pad2Buf m len) b = if 56 ≤ b then (le64Bytes len).getD (b - 56) 0 else 0 := by
  rw [pad2Buf, read_writeLength, read_fillZero]
  split_ifs <;> first | rfl | (exfalso; omega)

theorem wf_fillZero {m : Memory} (h : Memory.wf m) {a n : Nat} (hn : a + n ≤ 64) : Memory.wf (Memory.fillZero m a n) :=
  wf_writeBytes _ h (by simpa using hn)

theorem wf_writeLength {m : Memory} (h : Memory.wf m) (len : BitVec 64) : Memory.wf (Memory.writeLength m len) :=
  wf_writeBytes _ h (by simp)

theorem wf_pad1Buf {m : Memory} (h : Memory.wf m) {f : Nat} (hf : f < 64) (len : BitVec 64) :
    Memory.wf (pad1Buf m f len) := by
  have h1 : Memory.wf (Memory.fillZero (Memory.write m f 0x80) (f + 1) (63 - f)) :=
    wf_fillZero (wf_write h hf _) (by omega)
  unfold pad1Buf
  dsimp only
  split
  · exact wf_writeLength h1 len
  · exact h1

theorem wf_pad2Buf {m : Memory} (h : Memory.wf m) (len : BitVec 64) : Memory.wf (pad2Buf m len) :=
  wf_writeLength (wf_fillZero h (by simp)) len

/-- The scheduler's word depends on the four bytes it reads (R140). -/
theorem messageWord_congr {m m' : Memory} {k : Nat} (h : ∀ a, 4 * k ≤ a → a < 4 * k + 4 → Memory.read m a = Memory.read m' a) :
    messageWord m k = messageWord m' k := by
  unfold messageWord
  rw [h _ (by omega) (by omega), h _ (by omega) (by omega), h _ (by omega) (by omega), h _ (by omega) (by omega)]

end Sys2Proof.Machine
end

