-- ==== Sys2Proof/Laws/PerInstr.lean ====
section
/-! SUPPORT. The family `EncodingInRow`: an instruction's encoding matches the row of its own mnemonic in the opcode table
(spec 30_encoding.md R72, R82), whatever its operands. -/
namespace Sys2Proof.Laws.EncodingInRow
open Sys2Proof

/-- The encoding of `i` matches `i`'s row. -/
def Statement (i : Instr) : Prop :=
  ∃ r ∈ commandRows ++ microRows, r.mnemonic = mnemonicOf i ∧ r.holds (encode i) = true

theorem nop : Statement .nop := by unfold Statement; decide
theorem init : Statement .init := by unfold Statement; decide
theorem update (d : Byte) : Statement (.update d) :=
  ⟨⟨"UPDATE", 0xFF00, 0x2100⟩, by decide, rfl, by revert d; decide⟩
theorem updateE : Statement .updateE := by unfold Statement; decide
theorem finalize : Statement .finalize := by unfold Statement; decide
theorem rddig (j : BitVec 4) : Statement (.rddig j) :=
  ⟨⟨"RDDIG", 0xFFF0, 0x4000⟩, by decide, rfl, by revert j; decide⟩
theorem rdhex (j : BitVec 5) : Statement (.rdhex j) :=
  ⟨⟨"RDHEX", 0xFFE0, 0x5000⟩, by decide, rfl, by revert j; decide⟩
theorem rdstat : Statement .rdstat := by unfold Statement; decide
theorem mixF (ctx : Ctx) (i : BitVec 4) : Statement (.mixF ctx i) :=
  ⟨⟨"MIX_F", 0x0F0, 0x040⟩, by decide, rfl, by revert i; cases ctx <;> decide⟩
theorem mixG (ctx : Ctx) (i : BitVec 4) : Statement (.mixG ctx i) :=
  ⟨⟨"MIX_G", 0x0F0, 0x050⟩, by decide, rfl, by revert i; cases ctx <;> decide⟩
theorem mixH (ctx : Ctx) (i : BitVec 4) : Statement (.mixH ctx i) :=
  ⟨⟨"MIX_H", 0x0F0, 0x060⟩, by decide, rfl, by revert i; cases ctx <;> decide⟩
theorem ffwd (ctx : Ctx) (t : BitVec 6) : Statement (.ffwd ctx t) :=
  ⟨⟨"FFWD", 0x0C0, 0x080⟩, by decide, rfl, by revert t; cases ctx <;> decide⟩
theorem pad2 (ctx : Ctx) (t : BitVec 6) : Statement (.pad2 ctx t) :=
  ⟨⟨"PAD2", 0x0C0, 0x0C0⟩, by decide, rfl, by revert t; cases ctx <;> decide⟩

end Sys2Proof.Laws.EncodingInRow
end

