-- ==== Sys2Proof/Laws/State.lean ====
section
/-! SUPPORT. One lemma per field of State per named update, so that no later proof unfolds an update. -/
namespace Sys2Proof.Machine

/-! ### respond -/

@[simp] theorem respond_st (status : Status) (data : Byte) (s : State) : (respond status data s).st = s.st := rfl
@[simp] theorem respond_sv (status : Status) (data : Byte) (s : State) : (respond status data s).sv = s.sv := rfl
@[simp] theorem respond_buf (status : Status) (data : Byte) (s : State) : (respond status data s).buf = s.buf := rfl
@[simp] theorem respond_len (status : Status) (data : Byte) (s : State) : (respond status data s).len = s.len := rfl
@[simp] theorem respond_fin (status : Status) (data : Byte) (s : State) : (respond status data s).fin = s.fin := rfl
@[simp] theorem respond_seq (status : Status) (data : Byte) (s : State) : (respond status data s).seq = s.seq := rfl
@[simp] theorem respond_rsp (status : Status) (data : Byte) (s : State) : (respond status data s).rsp = ⟨true, status, data⟩ := rfl
@[simp] theorem respond_inputs (status : Status) (data : Byte) (s : State) : (respond status data s).inputs = s.inputs := rfl
@[simp] theorem respond_delivered (status : Status) (data : Byte) (s : State) : (respond status data s).delivered = s.delivered := rfl

/-! ### blockStart -/

@[simp] theorem blockStart_st (c : Ctx) (s : State) : (blockStart c s).st = s.st := rfl
@[simp] theorem blockStart_sv (c : Ctx) (s : State) : (blockStart c s).sv = s.st := rfl
@[simp] theorem blockStart_buf (c : Ctx) (s : State) : (blockStart c s).buf = s.buf := rfl
@[simp] theorem blockStart_len (c : Ctx) (s : State) : (blockStart c s).len = s.len := rfl
@[simp] theorem blockStart_fin (c : Ctx) (s : State) : (blockStart c s).fin = s.fin := rfl
@[simp] theorem blockStart_seq (c : Ctx) (s : State) : (blockStart c s).seq = ⟨c, .mix, 0⟩ := rfl
@[simp] theorem blockStart_rsp (c : Ctx) (s : State) : (blockStart c s).rsp = s.rsp := rfl
@[simp] theorem blockStart_inputs (c : Ctx) (s : State) : (blockStart c s).inputs = s.inputs := rfl
@[simp] theorem blockStart_delivered (c : Ctx) (s : State) : (blockStart c s).delivered = s.delivered := rfl

/-! ### setPhase -/

@[simp] theorem setPhase_st (p : Phase) (s : State) : (setPhase p s).st = s.st := rfl
@[simp] theorem setPhase_sv (p : Phase) (s : State) : (setPhase p s).sv = s.sv := rfl
@[simp] theorem setPhase_buf (p : Phase) (s : State) : (setPhase p s).buf = s.buf := rfl
@[simp] theorem setPhase_len (p : Phase) (s : State) : (setPhase p s).len = s.len := rfl
@[simp] theorem setPhase_fin (p : Phase) (s : State) : (setPhase p s).fin = s.fin := rfl
@[simp] theorem setPhase_seq (p : Phase) (s : State) : (setPhase p s).seq = ⟨s.seq.ctx, p, s.seq.t⟩ := rfl
@[simp] theorem setPhase_rsp (p : Phase) (s : State) : (setPhase p s).rsp = s.rsp := rfl
@[simp] theorem setPhase_inputs (p : Phase) (s : State) : (setPhase p s).inputs = s.inputs := rfl
@[simp] theorem setPhase_delivered (p : Phase) (s : State) : (setPhase p s).delivered = s.delivered := rfl

/-! ### finishOk -/

@[simp] theorem finishOk_st (s : State) : (finishOk s).st = s.st := rfl
@[simp] theorem finishOk_sv (s : State) : (finishOk s).sv = s.sv := rfl
@[simp] theorem finishOk_buf (s : State) : (finishOk s).buf = s.buf := rfl
@[simp] theorem finishOk_len (s : State) : (finishOk s).len = s.len := rfl
@[simp] theorem finishOk_fin (s : State) : (finishOk s).fin = s.fin := rfl
@[simp] theorem finishOk_seq (s : State) : (finishOk s).seq = ⟨s.seq.ctx, .idle, s.seq.t⟩ := rfl
@[simp] theorem finishOk_rsp (s : State) : (finishOk s).rsp = ⟨true, .ok, 0⟩ := rfl
@[simp] theorem finishOk_inputs (s : State) : (finishOk s).inputs = s.inputs := rfl
@[simp] theorem finishOk_delivered (s : State) : (finishOk s).delivered = s.delivered := rfl

/-! ### absorb -/

@[simp] theorem absorb_st (d : Byte) (s : State) : (absorb d s).st = s.st := rfl
@[simp] theorem absorb_sv (d : Byte) (s : State) : (absorb d s).sv = s.sv := rfl
@[simp] theorem absorb_buf (d : Byte) (s : State) : (absorb d s).buf = Memory.write s.buf s.fill.toNat d := rfl
@[simp] theorem absorb_len (d : Byte) (s : State) : (absorb d s).len = s.len + 8 := rfl
@[simp] theorem absorb_fin (d : Byte) (s : State) : (absorb d s).fin = s.fin := rfl
@[simp] theorem absorb_seq (d : Byte) (s : State) : (absorb d s).seq = s.seq := rfl
@[simp] theorem absorb_rsp (d : Byte) (s : State) : (absorb d s).rsp = s.rsp := rfl
@[simp] theorem absorb_inputs (d : Byte) (s : State) : (absorb d s).inputs = s.inputs := rfl
@[simp] theorem absorb_delivered (d : Byte) (s : State) : (absorb d s).delivered = s.delivered := rfl

/-! ### pad1 -/

@[simp] theorem pad1_st (s : State) : (pad1 s).st = s.st := rfl
@[simp] theorem pad1_sv (s : State) : (pad1 s).sv = s.sv := rfl
@[simp] theorem pad1_buf (s : State) : (pad1 s).buf = pad1Buf s.buf s.fill.toNat s.len := rfl
@[simp] theorem pad1_len (s : State) : (pad1 s).len = s.len := rfl
@[simp] theorem pad1_fin (s : State) : (pad1 s).fin = s.fin := rfl
@[simp] theorem pad1_seq (s : State) : (pad1 s).seq = s.seq := rfl
@[simp] theorem pad1_rsp (s : State) : (pad1 s).rsp = s.rsp := rfl
@[simp] theorem pad1_inputs (s : State) : (pad1 s).inputs = s.inputs := rfl
@[simp] theorem pad1_delivered (s : State) : (pad1 s).delivered = s.delivered := rfl

/-! ### mixWith -/

@[simp] theorem mixWith_st (e : RomEntry) (t : BitVec 6) (s : State) : (mixWith e t s).st = mixQuad e (messageWord s.buf e.k) s.st := rfl
@[simp] theorem mixWith_sv (e : RomEntry) (t : BitVec 6) (s : State) : (mixWith e t s).sv = s.sv := rfl
@[simp] theorem mixWith_buf (e : RomEntry) (t : BitVec 6) (s : State) : (mixWith e t s).buf = s.buf := rfl
@[simp] theorem mixWith_len (e : RomEntry) (t : BitVec 6) (s : State) : (mixWith e t s).len = s.len := rfl
@[simp] theorem mixWith_fin (e : RomEntry) (t : BitVec 6) (s : State) : (mixWith e t s).fin = s.fin := rfl
@[simp] theorem mixWith_seq (e : RomEntry) (t : BitVec 6) (s : State) : (mixWith e t s).seq = advanceStep t s.seq := rfl
@[simp] theorem mixWith_rsp (e : RomEntry) (t : BitVec 6) (s : State) : (mixWith e t s).rsp = s.rsp := rfl
@[simp] theorem mixWith_inputs (e : RomEntry) (t : BitVec 6) (s : State) : (mixWith e t s).inputs = s.inputs := rfl
@[simp] theorem mixWith_delivered (e : RomEntry) (t : BitVec 6) (s : State) : (mixWith e t s).delivered = s.delivered := rfl

/-! ### take -/

@[simp] theorem take_st (s : State) : (take s).st = s.st := rfl
@[simp] theorem take_sv (s : State) : (take s).sv = s.sv := rfl
@[simp] theorem take_buf (s : State) : (take s).buf = s.buf := rfl
@[simp] theorem take_len (s : State) : (take s).len = s.len := rfl
@[simp] theorem take_fin (s : State) : (take s).fin = s.fin := rfl
@[simp] theorem take_seq (s : State) : (take s).seq = s.seq := rfl
@[simp] theorem take_rsp (s : State) : (take s).rsp = ⟨false, s.rsp.status, s.rsp.data⟩ := rfl
@[simp] theorem take_inputs (s : State) : (take s).inputs = s.inputs := rfl
@[simp] theorem take_delivered (s : State) : (take s).delivered = s.delivered ++ [s.rsp.response] := rfl

/-! ### resetCore -/

@[simp] theorem resetCore_st (s : State) : (resetCore s).st = iv := rfl
@[simp] theorem resetCore_sv (s : State) : (resetCore s).sv = ⟨0, 0, 0, 0⟩ := rfl
@[simp] theorem resetCore_buf (s : State) : (resetCore s).buf = [] := rfl
@[simp] theorem resetCore_len (s : State) : (resetCore s).len = 0 := rfl
@[simp] theorem resetCore_fin (s : State) : (resetCore s).fin = false := rfl
@[simp] theorem resetCore_seq (s : State) : (resetCore s).seq = ⟨.upd, .idle, 0⟩ := rfl
@[simp] theorem resetCore_rsp (s : State) : (resetCore s).rsp = ⟨false, .ok, 0⟩ := rfl
@[simp] theorem resetCore_inputs (s : State) : (resetCore s).inputs = s.inputs := rfl
@[simp] theorem resetCore_delivered (s : State) : (resetCore s).delivered = s.delivered := rfl

/-! ### values computed from the state -/

@[simp] theorem respond_fill (status : Status) (data : Byte) (s : State) : (respond status data s).fill = s.fill := rfl
@[simp] theorem blockStart_fill (c : Ctx) (s : State) : (blockStart c s).fill = s.fill := rfl
@[simp] theorem setPhase_fill (p : Phase) (s : State) : (setPhase p s).fill = s.fill := rfl
@[simp] theorem finishOk_fill (s : State) : (finishOk s).fill = s.fill := rfl
@[simp] theorem pad1_fill (s : State) : (pad1 s).fill = s.fill := rfl
@[simp] theorem mixWith_fill (e : RomEntry) (t : BitVec 6) (s : State) : (mixWith e t s).fill = s.fill := rfl
@[simp] theorem take_fill (s : State) : (take s).fill = s.fill := rfl

@[simp] theorem resetCore_fill (s : State) : (resetCore s).fill = 0 := by
  simp [State.fill]

/-- The update that `step` makes before it looks at a sample. -/
@[simp] theorem withInputs_fill (s : State) (ps : List Pins) : ({ s with inputs := ps } : State).fill = s.fill := rfl

@[simp] theorem withInputs_cmdReady (s : State) (ps : List Pins) :
    ({ s with inputs := ps } : State).cmdReady = s.cmdReady := rfl

theorem cmdReady_iff (s : State) : s.cmdReady = true ↔ s.seq.phase = .idle ∧ s.rsp.valid = false := by
  simp [State.cmdReady]

end Sys2Proof.Machine
end

