-- ==== Sys2Proof/Laws/Step.lean ====
section
/-! SUPPORT. What a step can do, said once: the internal step phase by phase, the commands' acceptance actions, and the
inversion of `step`. -/
namespace Sys2Proof.Machine

/-! ## The round table -/

/-- The ROM has an entry for each of the 48 steps (R30). -/
theorem rom_isSome {t : Nat} (h : t < 48) : ∃ e, rom t = some e :=
  ⟨roundTable[t]'h, List.getElem?_eq_getElem h⟩

/-- It has none for a step from 48 on (R50). -/
theorem rom_none {t : Nat} (h : 48 ≤ t) : rom t = none := List.getElem?_eq_none h

theorem mixStep_next {ctx : Ctx} {t : BitVec 6} {e : RomEntry} (hc : ctx ≠ .unused3) (he : rom t.toNat = some e) (s : State) :
    mixStep ctx t s = .next (mixWith e t s) := by
  simp [mixStep, hc, he]

/-- FILL depends on LEN alone (R24). -/
theorem withState_fill (s : State) (q : Quad) : ({ s with st := q } : State).fill = s.fill := rfl

/-! ## The internal step, phase by phase -/

theorem internalStep_idle {s : State} (h : s.seq.phase = .idle) : internalStep s = .refused .noStepEnabled := by
  have : s.seq = ⟨s.seq.ctx, .idle, s.seq.t⟩ := by rw [← h]
  rw [internalStep, this, decodeSeq_idle]

theorem internalStep_ffwd {s : State} (h : s.seq.phase = .ffwd) :
    internalStep s = complete s.seq.ctx { s with st := s.st.add s.sv } := by
  have : s.seq.word = Seq.word ⟨s.seq.ctx, .ffwd, s.seq.t⟩ := by rw [← h]
  rw [internalStep, this, decodeSeq_ffwd]
  rfl

theorem internalStep_pad2 {s : State} (h : s.seq.phase = .pad2) :
    internalStep s = execPad2 s.seq.ctx s.seq.t s := by
  have : s.seq.word = Seq.word ⟨s.seq.ctx, .pad2, s.seq.t⟩ := by rw [← h]
  rw [internalStep, this, decodeSeq_pad2]
  rfl

theorem internalStep_mix {s : State} (h : s.seq.phase = .mix) (ht : s.seq.t.toNat < 48) :
    internalStep s = mixStep s.seq.ctx s.seq.t s := by
  have hw : s.seq.word = Seq.word ⟨s.seq.ctx, .mix, s.seq.t⟩ := by rw [← h]
  obtain ⟨h0, h1, h2, -⟩ := round_of_step s.seq.t
  rw [internalStep, hw, decodeSeq_mix]
  by_cases c0 : s.seq.t.toNat < 16
  · rw [if_pos (h0.1 c0)]
    show mixStep s.seq.ctx (0#2 ++ s.seq.t.extractLsb' 0 4) s = _
    exact congrArg (mixStep s.seq.ctx · s) (step_of_round _ _ (h0.1 c0))
  · have n0 : ¬s.seq.t.extractLsb' 4 2 = 0 := fun hc => c0 (h0.2 hc)
    by_cases c1 : s.seq.t.toNat < 32
    · have c1' := h1.1 ⟨by omega, c1⟩
      rw [if_neg n0, if_pos c1']
      show mixStep s.seq.ctx (1#2 ++ s.seq.t.extractLsb' 0 4) s = _
      exact congrArg (mixStep s.seq.ctx · s) (step_of_round _ _ c1')
    · have n1 : ¬s.seq.t.extractLsb' 4 2 = 1 := fun hc => c1 (h1.2 hc).2
      have c2 := h2.1 ⟨by omega, ht⟩
      rw [if_neg n0, if_neg n1, if_pos c2]
      show mixStep s.seq.ctx (2#2 ++ s.seq.t.extractLsb' 0 4) s = _
      exact congrArg (mixStep s.seq.ctx · s) (step_of_round _ _ c2)

theorem internalStep_mix_noRow {s : State} (h : s.seq.phase = .mix) (ht : 48 ≤ s.seq.t.toNat) :
    internalStep s = .fault .unreachableRound := by
  have hw : s.seq.word = Seq.word ⟨s.seq.ctx, .mix, s.seq.t⟩ := by rw [← h]
  have h3 := (round_of_step s.seq.t).2.2.2.1 ht
  rw [internalStep, hw, decodeSeq_mix, h3]
  rfl

/-- What a micro-step can do (R178, R181, R182, R147). -/
theorem internalStep_cases {s t : State} (h : internalStep s = .next t) :
    (∃ e, s.seq.phase = .mix ∧ s.seq.ctx ≠ .unused3 ∧ rom s.seq.t.toNat = some e ∧ t = mixWith e s.seq.t s) ∨
    (s.seq.phase = .ffwd ∧ s.seq.ctx = .fin1 ∧ 56 ≤ s.fill.toNat ∧ t = setPhase .pad2 { s with st := s.st.add s.sv }) ∨
    (s.seq.phase = .ffwd ∧ s.seq.ctx = .fin1 ∧ s.fill.toNat < 56 ∧
      t = finishOk { s with st := s.st.add s.sv, fin := true }) ∨
    (s.seq.phase = .ffwd ∧ s.seq.ctx = .fin2 ∧ t = finishOk { s with st := s.st.add s.sv, fin := true }) ∨
    (s.seq.phase = .ffwd ∧ s.seq.ctx = .upd ∧ t = finishOk { s with st := s.st.add s.sv }) ∨
    (s.seq.phase = .pad2 ∧ s.seq.ctx = .fin1 ∧ t = blockStart .fin2 { s with buf := pad2Buf s.buf s.len }) := by
  match hp : s.seq.phase with
  | .idle => simp [internalStep_idle hp] at h
  | .mix =>
    by_cases ht : s.seq.t.toNat < 48
    · obtain ⟨e, he⟩ := rom_isSome ht
      by_cases hc : s.seq.ctx = .unused3
      · simp [internalStep_mix hp ht, mixStep, hc] at h
      · rw [internalStep_mix hp ht, mixStep_next hc he] at h
        injection h with h
        exact .inl ⟨e, rfl, hc, he, h.symm⟩
    · simp [internalStep_mix_noRow hp (by omega)] at h
  | .ffwd =>
    rw [internalStep_ffwd hp] at h
    match hc : s.seq.ctx with
    | .unused3 => simp [hc, complete] at h
    | .upd =>
      rw [hc] at h
      injection h with h
      simp [← h]
    | .fin2 =>
      rw [hc] at h
      injection h with h
      simp [← h]
    | .fin1 =>
      by_cases hf : 56 ≤ s.fill.toNat
      · rw [hc, complete, withState_fill, if_pos hf] at h
        injection h with h
        simp [← h, hf]
      · rw [hc, complete, withState_fill, if_neg hf] at h
        injection h with h
        simp [← h]
        omega
  | .pad2 =>
    rw [internalStep_pad2 hp] at h
    match hc : s.seq.ctx with
    | .fin1 =>
      rw [hc] at h
      injection h with h
      simp [← h]
    | .upd => simp [hc, execPad2] at h
    | .fin2 => simp [hc, execPad2] at h
    | .unused3 => simp [hc, execPad2] at h

/-! ## The acceptance actions -/

/-- What accepting a word can do (R101 to R108, R203): answer at once and change only RSP, start a new message, absorb a
byte, or start a block. Accepting never stops the machine. -/
theorem accept_cases (w : CmdWord) (s : State) :
    (∃ r d, accept w s = .next (respond r d s)) ∨
    (decodeCmd w = .command .init ∧ accept w s = .next (respond .ok 0 { s with st := iv, len := 0, fin := false })) ∨
    (∃ d, decodeCmd w = .command (.update d) ∧ s.fin = false ∧ s.fill ≠ 63 ∧
      accept w s = .next (respond .ok 0 (absorb d s))) ∨
    (∃ d, decodeCmd w = .command (.update d) ∧ s.fin = false ∧ s.fill = 63 ∧
      accept w s = .next (blockStart .upd (absorb d s))) ∨
    (decodeCmd w = .command .finalize ∧ s.fin = false ∧ accept w s = .next (blockStart .fin1 (pad1 s))) := by
  unfold accept
  split
  next i hi =>
    cases i with
    | nop => exact .inl ⟨_, _, rfl⟩
    | init => exact .inr (.inl ⟨hi, rfl⟩)
    | update d =>
      by_cases hf : s.fin
      · exact .inl ⟨.errFinalized, 0, by simp [exec, execUpdate, hf]⟩
      · by_cases h63 : s.fill = 63
        · exact .inr (.inr (.inr (.inl ⟨d, hi, by simpa using hf, h63, (if_neg hf).trans (if_pos h63)⟩)))
        · exact .inr (.inr (.inl ⟨d, hi, by simpa using hf, h63, (if_neg hf).trans (if_neg h63)⟩))
    | updateE =>
      by_cases hf : s.fin
      · exact .inl ⟨.errFinalized, 0, by simp [exec, execUpdateE, hf]⟩
      · exact .inl ⟨.ok, 0, by simp [exec, execUpdateE, hf]⟩
    | finalize =>
      by_cases hf : s.fin
      · exact .inl ⟨.ok, 0, by simp [exec, execFinalize, hf]⟩
      · exact .inr (.inr (.inr (.inr ⟨hi, by simpa using hf, by simp [exec, execFinalize, hf]⟩)))
    | rddig j =>
      by_cases hf : s.fin
      · exact .inl ⟨.ok, digestByte s.st j, by simp [exec, execRddig, hf]⟩
      · exact .inl ⟨.notReady, 0, by simp [exec, execRddig, hf]⟩
    | rdhex j =>
      by_cases hf : s.fin
      · exact .inl ⟨.ok, digestHexChar s.st j, by simp [exec, execRdhex, hf]⟩
      · exact .inl ⟨.notReady, 0, by simp [exec, execRdhex, hf]⟩
    | rdstat => exact .inl ⟨_, _, rfl⟩
    | mixF c i => exact absurd hi (decodeCmd_isCommand w _ rfl)
    | mixG c i => exact absurd hi (decodeCmd_isCommand w _ rfl)
    | mixH c i => exact absurd hi (decodeCmd_isCommand w _ rfl)
    | ffwd c t => exact absurd hi (decodeCmd_isCommand w _ rfl)
    | pad2 c t => exact absurd hi (decodeCmd_isCommand w _ rfl)
  next => exact .inl ⟨_, _, rfl⟩

/-! ## The step -/

/-- The state a step works on: the sample it uses is taken off the list. -/
def afterSample (s : State) : State := { s with inputs := s.inputs.tail }

@[simp] theorem afterSample_st (s : State) : (afterSample s).st = s.st := rfl
@[simp] theorem afterSample_sv (s : State) : (afterSample s).sv = s.sv := rfl
@[simp] theorem afterSample_buf (s : State) : (afterSample s).buf = s.buf := rfl
@[simp] theorem afterSample_len (s : State) : (afterSample s).len = s.len := rfl
@[simp] theorem afterSample_fin (s : State) : (afterSample s).fin = s.fin := rfl
@[simp] theorem afterSample_seq (s : State) : (afterSample s).seq = s.seq := rfl
@[simp] theorem afterSample_rsp (s : State) : (afterSample s).rsp = s.rsp := rfl
@[simp] theorem afterSample_inputs (s : State) : (afterSample s).inputs = s.inputs.tail := rfl
@[simp] theorem afterSample_delivered (s : State) : (afterSample s).delivered = s.delivered := rfl
@[simp] theorem afterSample_fill (s : State) : (afterSample s).fill = s.fill := rfl

/-- An idle sequencer is never in a state of R187. -/
theorem seqFault_idle {q : Seq} (h : q.phase = .idle) : seqFault q = none := by simp [seqFault, h]

/-- The states that fault are R187's three kinds. -/
theorem seqFault_eq_none {q : Seq} :
    seqFault q = none ↔
      q.phase = .idle ∨
        ((q.phase = .mix → q.t.toNat < 48) ∧ q.ctx ≠ .unused3 ∧ (q.phase = .pad2 → q.ctx = .fin1)) := by
  unfold seqFault
  by_cases h0 : q.phase = .idle
  · simp [h0]
  by_cases h1 : q.phase = .mix ∧ 48 ≤ q.t.toNat
  · simp [h1]
  by_cases h2 : q.ctx = .unused3
  · simp [h0, h1, h2]
  by_cases h3 : q.phase = .pad2 ∧ q.ctx ≠ .fin1
  · rw [if_neg h0, if_neg h1, if_neg h2, if_pos h3]
    simp [h3]
  · simp only [h0, h1, h2, h3, if_false, true_iff, false_or]
    refine ⟨fun hm => ?_, h2, fun hp => ?_⟩
    · by_contra hc
      exact h1 ⟨hm, by omega⟩
    · by_contra hc
      exact h3 ⟨hp, hc⟩

/-- A micro-step of a state that faults is that fault: the sequencer's own checks and `seqFault` agree (R187). -/
theorem internalStep_fault {s : State} {f : Fault} (h : seqFault s.seq = some f) : internalStep s = .fault f := by
  unfold seqFault at h
  split at h
  · cases h
  next h0 =>
  split at h
  next h1 =>
    cases h
    exact internalStep_mix_noRow h1.1 h1.2
  next h1 =>
  match hp : s.seq.phase with
  | .idle => exact absurd hp h0
  | .mix =>
    have ht : s.seq.t.toNat < 48 := by
      by_contra hc
      exact h1 ⟨hp, by omega⟩
    by_cases h2 : s.seq.ctx = .unused3
    · rw [internalStep_mix hp ht, mixStep, if_pos h2]
      simpa [h2] using h
    · simp [h2, hp] at h
  | .ffwd =>
    by_cases h2 : s.seq.ctx = .unused3
    · rw [internalStep_ffwd hp, h2]
      simpa [h2, complete] using h
    · simp [h2, hp] at h
  | .pad2 =>
    rw [internalStep_pad2 hp]
    cases hc : s.seq.ctx <;> simp_all [execPad2]

/-- A busy core in no state of R187 has a micro-step (R186). -/
theorem internalStep_total {s : State} (h : seqFault s.seq = none) (hp : s.seq.phase ≠ .idle) :
    ∃ t, internalStep s = .next t := by
  obtain ⟨ht, hc, h2⟩ := (seqFault_eq_none.1 h).resolve_left hp
  match hq : s.seq.phase with
  | .idle => exact absurd hq hp
  | .mix =>
    obtain ⟨e, he⟩ := rom_isSome (ht hq)
    exact ⟨_, (internalStep_mix hq (ht hq)).trans (mixStep_next hc he s)⟩
  | .ffwd =>
    rw [internalStep_ffwd hq]
    match hx : s.seq.ctx with
    | .upd => exact ⟨_, rfl⟩
    | .fin1 =>
      by_cases hf : 56 ≤ s.fill.toNat
      · exact ⟨_, if_pos hf⟩
      · exact ⟨_, if_neg hf⟩
    | .fin2 => exact ⟨_, rfl⟩
    | .unused3 => exact absurd hx hc
  | .pad2 => exact ⟨_, by rw [internalStep_pad2 hq, h2 hq]; rfl⟩

/-- What the event of a sample can be. -/
theorem eventStep_cases (p : Pins) (s : State) :
    (s.rsp.valid = true ∧ p.rspReady = true ∧ eventStep p s = .next (take s)) ∨
    (s.cmdReady = true ∧ p.cmdValid = true ∧ eventStep p s = accept p.cmdData s) ∨
    (s.seq.phase = .idle ∧ eventStep p s = .next s) ∨
    (s.seq.phase ≠ .idle ∧ eventStep p s = internalStep s) := by
  unfold eventStep
  by_cases ht : (s.rsp.valid && p.rspReady) = true
  · rw [if_pos ht]
    rw [Bool.and_eq_true] at ht
    exact .inl ⟨ht.1, ht.2, rfl⟩
  rw [if_neg ht]
  by_cases hc : (s.cmdReady && p.cmdValid) = true
  · rw [if_pos hc]
    rw [Bool.and_eq_true] at hc
    exact .inr (.inl ⟨hc.1, hc.2, rfl⟩)
  rw [if_neg hc]
  by_cases hp : s.seq.phase = .idle
  · rw [if_pos hp]
    exact .inr (.inr (.inl ⟨hp, rfl⟩))
  · rw [if_neg hp]
    exact .inr (.inr (.inr ⟨hp, rfl⟩))

/-- What a step can do, in full: which event, when it is enabled, and what it leaves. -/
theorem step_cases {s t : State} (h : step s = .next t) :
    (∃ p, s.inputs.head? = some p ∧ p.rst = true ∧ t = resetCore (afterSample s)) ∨
    (∃ p, s.inputs.head? = some p ∧ p.rst = false ∧ seqFault s.seq = none ∧ s.rsp.valid = true ∧ p.rspReady = true ∧
      t = take (afterSample s)) ∨
    (∃ p, s.inputs.head? = some p ∧ p.rst = false ∧ s.cmdReady = true ∧ p.cmdValid = true ∧
      accept p.cmdData (afterSample s) = .next t) ∨
    (∃ p, s.inputs.head? = some p ∧ p.rst = false ∧ s.seq.phase = .idle ∧ t = afterSample s) ∨
    (s.seq.phase ≠ .idle ∧ internalStep (afterSample s) = .next t) := by
  unfold step at h
  match hi : s.inputs with
  | [] =>
    have hs : afterSample s = s := by
      cases s
      simp_all [afterSample]
    rw [hi] at h
    refine .inr (.inr (.inr (.inr ⟨fun hp => ?_, by rwa [hs]⟩)))
    simp [internalStep_idle hp] at h
  | p :: rest =>
    have hs : ({ s with inputs := rest } : State) = afterSample s := by simp [afterSample, hi]
    rw [hi] at h
    simp only [pinStep, hs] at h
    by_cases hr : p.rst
    · rw [if_pos hr] at h
      injection h with h
      exact .inl ⟨p, rfl, hr, h.symm⟩
    rw [if_neg hr] at h
    have hr' : p.rst = false := by simpa using hr
    split at h
    · cases h
    next hf =>
    obtain ⟨hv, hy, he⟩ | ⟨hc, hv, he⟩ | ⟨hp, he⟩ | ⟨hp, he⟩ := eventStep_cases p (afterSample s) <;> rw [he] at h
    · injection h with h
      exact .inr (.inl ⟨p, rfl, hr', hf, hv, hy, h.symm⟩)
    · exact .inr (.inr (.inl ⟨p, rfl, hr', hc, hv, h⟩))
    · injection h with h
      exact .inr (.inr (.inr (.inl ⟨p, rfl, hr', hp, h.symm⟩)))
    · exact .inr (.inr (.inr (.inr ⟨hp, h⟩)))

/-! ## Runs -/

/-- The model's `run` is the host's. -/
theorem run_eq_hostRun (k : Nat) (s : State) : Host.Core.run core k s = Safety.run k s := by
  induction k generalizing s with
  | zero => rfl
  | succ k ih =>
    have h : core.step s = step s := rfl
    simp only [Host.Core.run, Safety.run, h]
    cases step s with
    | next t => exact ih t
    | fault r => rfl
    | refused r => rfl

theorem runsTo_zero {s t : State} : Safety.RunsTo 0 s t ↔ s = t := by simp [Safety.RunsTo, Safety.run]

theorem runsTo_succ {k : Nat} {s t : State} :
    Safety.RunsTo (k + 1) s t ↔ ∃ u, step s = .next u ∧ Safety.RunsTo k u t := by
  unfold Safety.RunsTo
  simp only [Safety.run]
  cases step s <;> simp

theorem runsTo_add {m n : Nat} {s t : State} :
    Safety.RunsTo (m + n) s t ↔ ∃ u, Safety.RunsTo m s u ∧ Safety.RunsTo n u t := by
  induction m generalizing s with
  | zero => simp [runsTo_zero]
  | succ m ih =>
    rw [Nat.succ_add, runsTo_succ]
    simp only [ih, runsTo_succ]
    constructor
    · rintro ⟨u, h1, v, h2, h3⟩
      exact ⟨v, ⟨u, h1, h2⟩, h3⟩
    · rintro ⟨v, ⟨u, h1, h2⟩, h3⟩
      exact ⟨u, h1, v, h2, h3⟩

/-- A run is determined by its start and its length. -/
theorem runsTo_unique {k : Nat} {s t t' : State} (h : Safety.RunsTo k s t) (h' : Safety.RunsTo k s t') : t = t' := by
  unfold Safety.RunsTo at h h'
  rw [h] at h'
  injection h'

end Sys2Proof.Machine
end

