-- ==== Sys2Proof/Tests/Slice0.lean ====
section
/-! SUPPORT. The model's own tests, expected values from the spec's tables (mostly 95_test_vectors.md), and for every
statement with hypotheses a witness that meets them together. -/
namespace Sys2Proof.Tests
open Sys2Proof Sys2Proof.Machine Sys2Proof.Safety Sys2Proof.Claims

/-! ## Helpers -/

/-- A field of the next state, if there is one. -/
def look {α : Type} (f : State → α) : Host.Outcome State Fault Refusal → Option α
  | .next t => some (f t)
  | .fault _ => none
  | .refused _ => none

/-- The fault of an outcome. -/
def faultOf : Host.Outcome State Fault Refusal → Option Fault
  | .next _ => none
  | .fault r => some r
  | .refused _ => none

/-- The reset state with `n` bytes absorbed, as far as LEN says. -/
def filled (n : Nat) : State := { State.reset with len := BitVec.ofNat 64 (8 * n) }

/-- The end state of program P5 of 95_test_vectors.md: the message `"a"` finalized. -/
def finalizedA : State := { State.reset with
  st := ⟨0xB32CE5BD, 0x463EE31D, 0xFB055E24, 0x24FBD6DB⟩, sv := iv, buf := [(0, 0x61), (1, 0x80), (56, 0x08)], len := 8,
  fin := true, seq := ⟨.fin1, .idle, 47⟩, rsp := ⟨false, .ok, 0x03⟩ }

/-- A state at MIX step 0 with the given ST and BUF. -/
def mixing (st : Quad) (buf : Memory) : State := { State.reset with st := st, buf := buf, seq := ⟨.upd, .mix, 0⟩ }

/-- Right after FINALIZE is accepted in the reset state. -/
def busy : State := { State.reset with buf := [(0, 0x80)], sv := iv, seq := ⟨.fin1, .mix, 0⟩ }

/-- Just before the FFWD of the empty message (95_test_vectors.md 2.5). -/
def beforeFfwd : State := { State.reset with
  st := ⟨0x798AB330, 0x421BBF48, 0x3E9E5FB9, 0xB0576C6A⟩, sv := iv, buf := [(0, 0x80)], seq := ⟨.fin1, .ffwd, 47⟩ }

/-- An idle core with a response the host has not taken. -/
def answered : State := { State.reset with rsp := ⟨true, .ok, 0x04⟩ }

/-! ## Well-formedness: an ill-formed term for each check -/

theorem test_wf_mixF_refuses_ctx3 : ¬WellFormed (.mixF .unused3 0) := by decide
theorem test_wf_mixG_refuses_ctx3 : ¬WellFormed (.mixG .unused3 15) := by decide
theorem test_wf_mixH_refuses_ctx3 : ¬WellFormed (.mixH .unused3 7) := by decide
theorem test_wf_ffwd_refuses_ctx3 : ¬WellFormed (.ffwd .unused3 47) := by decide
theorem test_wf_pad2_refuses_other_ctx :
    ¬WellFormed (.pad2 .upd 47) ∧ ¬WellFormed (.pad2 .fin2 47) ∧ ¬WellFormed (.pad2 .unused3 47) := by decide

/-! ## Decoding: words written out from the patterns of 30_encoding.md R72 and R82 -/

theorem test_decode_nop : decodeCmd 0b0000000000000000 = .command .nop := by decide
theorem test_decode_init : decodeCmd 0b0001000000000000 = .command .init := by decide
theorem test_decode_update : decodeCmd 0b0010000110000001 = .command (.update 0x81) := by decide
theorem test_decode_updateE : decodeCmd 0b0010000000000000 = .command .updateE := by decide
theorem test_decode_finalize : decodeCmd 0b0011000000000000 = .command .finalize := by decide
theorem test_decode_rddig : decodeCmd 0b0100000000001101 = .command (.rddig 13) := by decide
theorem test_decode_rdhex : decodeCmd 0b0101000000010011 = .command (.rdhex 19) := by decide
theorem test_decode_rdstat : decodeCmd 0b0110000000000000 = .command .rdstat := by decide
/-- `SEQ before` of steps 5, 23 and 46 in 95_test_vectors.md 2.5. -/
theorem test_decode_mixF : decodeSeq 0x145 = .micro (.mixF .fin1 5) := by decide
theorem test_decode_mixG : decodeSeq 0x157 = .micro (.mixG .fin1 7) := by decide
theorem test_decode_mixH : decodeSeq 0x16E = .micro (.mixH .fin1 14) := by decide
/-- `SEQ = 0x1AF` (95_test_vectors.md 2.5) and `SEQ = 0x1EF` (P4). -/
theorem test_decode_ffwd : decodeSeq 0x1AF = .micro (.ffwd .fin1 47) := by decide
theorem test_decode_pad2 : decodeSeq 0x1EF = .micro (.pad2 .fin1 47) := by decide
theorem test_decode_idle : decodeSeq 0x12F = .idle := by decide

/-- The illegal words of 95_test_vectors.md 2.1. -/
theorem test_decode_illegal :
    ([0x2001, 0x4010, 0x5020, 0x0001, 0x0100, 0x1001, 0x1200, 0x2300, 0x2E61, 0x3100, 0x4100, 0x6001, 0x7000, 0x8000, 0xF000,
      0xFFFF] : List CmdWord).all (fun w => decodeCmd w == .illegal) = true := by decide

/-! ## Commands (95_test_vectors.md 2.10: S0, S1 and S2 = `finalizedA`) -/

theorem test_nop_answers_ok : look State.rspData (exec .nop finalizedA) = some 0x000 := by decide
theorem test_nop_keeps_st : look State.st (exec .nop finalizedA) = some finalizedA.st := by decide
theorem test_init_loads_iv :
    look State.st (exec .init finalizedA) = some ⟨0x67452301, 0xEFCDAB89, 0x98BADCFE, 0x10325476⟩ := by decide
theorem test_init_keeps_buf :
    look (fun t => (t.buf, t.len, t.fin)) (exec .init finalizedA) = some (finalizedA.buf, 0, false) := by decide
/-- R103's example. -/
theorem test_update_stores_at_fill :
    look (fun t => (t.buf, t.len, t.rspData)) (exec (.update 0x61) State.reset) = some ([(0, 0x61)], 8, 0x000) := by decide
/-- R103: "When `LEN = 2^64 - 8`, LEN wraps to 0. Then `f = 63` too, so a block is compressed." -/
theorem test_update_wraps_len :
    look (fun t => (t.len, t.seq, t.rsp.valid)) (exec (.update 0x62) { State.reset with len := 0xFFFFFFFFFFFFFFF8 }) =
      some (0, ⟨.upd, .mix, 0⟩, false) := by decide
theorem test_updateE_refused_when_finalized : look State.rspData (exec .updateE finalizedA) = some 0x100 := by decide
theorem test_updateE_keeps_len :
    look (fun t => (t.rspData, t.len)) (exec .updateE (filled 2)) = some (0x000, 16) := by decide
/-- The padded block of `"abc"`, 95_test_vectors.md 2.6. -/
theorem test_finalize_pads_abc :
    look (fun t => (t.buf, t.seq)) (exec .finalize { filled 3 with buf := [(0, 0x61), (1, 0x62), (2, 0x63)] }) =
      some ([(0, 0x61), (1, 0x62), (2, 0x63), (3, 0x80), (56, 0x18)], ⟨.fin1, .mix, 0⟩) := by decide
/-- L = 63 of 95_test_vectors.md 2.7: `80` in the last byte and no length. The old byte 63 is one INIT left behind. -/
theorem test_finalize_leaves_no_room_for_length :
    look State.buf (exec .finalize { filled 63 with buf := [(0, 0x61), (63, 0x77)] }) =
      some [(0, 0x61), (63, 0x80)] := by decide
theorem test_rddig_ends_of_digest :
    look State.rspData (exec (.rddig 0) finalizedA) = some 0x0BD ∧
      look State.rspData (exec (.rddig 15) finalizedA) = some 0x024 := by decide
theorem test_rddig_not_ready : look State.rspData (exec (.rddig 0) State.reset) = some 0x200 := by decide
theorem test_rdhex_high_nibble_first :
    look State.rspData (exec (.rdhex 0) finalizedA) = some 0x062 ∧
      look State.rspData (exec (.rdhex 1) finalizedA) = some 0x064 ∧
      look State.rspData (exec (.rdhex 31) finalizedA) = some 0x034 := by decide
theorem test_rdhex_not_ready : look State.rspData (exec (.rdhex 31) State.reset) = some 0x200 := by decide
theorem test_rdstat_of_s1_and_s2 :
    look State.rspData (exec .rdstat (filled 2)) = some 0x004 ∧ look State.rspData (exec .rdstat finalizedA) = some 0x003 := by
  decide
/-- P4's last row: FILL 56, FIN 1. -/
theorem test_rdstat_full_fill : look State.rspData (exec .rdstat { filled 56 with fin := true }) = some 0x071 := by decide
/-- P5: illegal, "not ERR_FINALIZED, though FIN = 1". -/
theorem test_illegal_beats_finalized : look State.rspData (accept 0x2300 finalizedA) = some 0x300 := by decide

/-! ## Micro-operations (95_test_vectors.md 2.4, 2.7, 2.8) -/

/-- The first step of the empty message. -/
theorem test_mixF_first_step :
    look (fun t => (t.st, t.seq)) (exec (.mixF .fin1 0) busy) =
      some (⟨0x10325476, 0x000003F8, 0xEFCDAB89, 0x98BADCFE⟩, ⟨.fin1, .mix, 1⟩) := by decide
/-- s = 19: bit 31 goes to bit 18. -/
theorem test_mixF_rotates_19 :
    look State.st (exec (.mixF .upd 3) (mixing ⟨0x80000000, 0, 0, 0⟩ [])) = some ⟨0, 0x00040000, 0, 0⟩ := by decide
theorem test_mixG_constant_alone :
    look State.st (exec (.mixG .upd 0) (mixing ⟨0, 0, 0, 0⟩ [])) = some ⟨0, 0xD413CCCA, 0, 0⟩ := by decide
theorem test_mixG_wraps :
    look State.st (exec (.mixG .upd 0) (mixing ⟨0xFFFFFFFF, 0xFFFFFFFF, 0xFFFFFFFF, 0xFFFFFFFF⟩
      [(0, 0xFF), (1, 0xFF), (2, 0xFF), (3, 0xFF)])) =
      some ⟨0xFFFFFFFF, 0xD413CCB2, 0xFFFFFFFF, 0xFFFFFFFF⟩ := by decide
/-- The last step, on X[15] = 0xDEADBEEF: s = 15, then phase FFWD. -/
theorem test_mixH_last_step :
    look (fun t => (t.st, t.seq)) (exec (.mixH .upd 15) { State.reset with
      st := ⟨0x01234567, 0x89ABCDEF, 0xFEDCBA98, 0x76543210⟩, seq := ⟨.upd, .mix, 47⟩,
      buf := [(60, 0xEF), (61, 0xBE), (62, 0xAD), (63, 0xDE)] }) =
      some (⟨0x76543210, 0x1AAF27E7, 0x89ABCDEF, 0xFEDCBA98⟩, ⟨.upd, .ffwd, 47⟩) := by decide
/-- Step 33 of 95_test_vectors.md 2.5. -/
theorem test_mixH_second_step :
    look State.st (exec (.mixH .fin1 1) { busy with st := ⟨0x0A15C329, 0xB9E91C4B, 0x6F952B2E, 0xB49A4DAE⟩ }) =
      some ⟨0xB49A4DAE, 0xAC532BB7, 0xB9E91C4B, 0x6F952B2E⟩ := by decide
theorem test_ffwd_empty_message :
    look (fun t => (t.st, t.fin, t.seq.word, t.rspData)) (exec (.ffwd .fin1 47) beforeFfwd) =
      some (⟨0xE0CFD631, 0x31E96AD1, 0xD7593CB7, 0xC089C0E0⟩, true, 0x12F, 0x000) := by decide
theorem test_ffwd_passes_no_carry :
    look State.st (exec (.ffwd .upd 47) { State.reset with
      st := ⟨0xFFFFFFFF, 0xFFFFFFFF, 0x80000000, 0⟩, sv := ⟨1, 0xFFFFFFFF, 0x80000000, 0⟩ }) =
      some ⟨0, 0xFFFFFFFE, 0, 0⟩ := by decide
/-- L = 56. -/
theorem test_pad2_writes_length :
    look (fun t => (t.buf, t.seq)) (exec (.pad2 .fin1 47) { filled 56 with
      buf := [(0, 0x61), (55, 0x61), (56, 0x80)], seq := ⟨.fin1, .pad2, 47⟩ }) =
      some ([(56, 0xC0), (57, 0x01)], ⟨.fin2, .mix, 0⟩) := by decide +kernel
theorem test_pad2_faults_elsewhere : faultOf (exec (.pad2 .fin2 47) (filled 56)) = some .unreachablePad2 := by decide

/-- R214: a state of R187 "never continues", also where a response could be taken. -/
theorem test_fault_comes_before_take :
    faultOf (step { answered with seq := ⟨.fin2, .pad2, 47⟩, inputs := [Pins.ready] }) = some .unreachablePad2 := by decide

/-! ## Functions and tables -/

/-- The row "mixed" and the row "IV B, C, D" of 95_test_vectors.md 2.2. -/
theorem test_round_functions :
    fnF 0xF0F0F0F0 0xFF00FF00 0x0FF00FF0 = 0xFF00FF00 ∧ fnG 0xF0F0F0F0 0xFF00FF00 0x0FF00FF0 = 0xFFF0FFF0 ∧
      fnH 0xF0F0F0F0 0xFF00FF00 0x0FF00FF0 = 0 ∧ fnH 0xEFCDAB89 0x98BADCFE 0x10325476 = 0x67452301 := by decide
/-- 95_test_vectors.md 2.3. -/
theorem test_rotl32 : rotl32 0x12345678 13 = 0x8ACF0246 ∧ rotl32 0xF0000000 3 = 0x80000007 := by decide
/-- 95_test_vectors.md 2.6: X[0] and X[14] of `"abc"`. -/
theorem test_message_words :
    messageWord [(0, 0x61), (1, 0x62), (2, 0x63), (3, 0x80), (56, 0x18)] 0 = 0x80636261 ∧
      messageWord [(0, 0x61), (1, 0x62), (2, 0x63), (3, 0x80), (56, 0x18)] 14 = 0x18 := by decide
/-- R7: 48 mixer steps, and the length field fills the block. -/
theorem test_parameters :
    roundTable.length = Config.mixSteps ∧ Config.lengthOffset + 8 = Config.blockBytes ∧
      1 + 2 * (Config.mixSteps + 1) = Config.maxMicroSteps := by decide
/-- 95_test_vectors.md 1.5: `pad_zeros` and `nblk`. -/
theorem test_padding_table :
    [0, 1, 3, 55, 56, 57, 63, 64, 65, 119, 120, 127, 128].map padZeros = [55, 54, 52, 0, 63, 62, 56, 55, 54, 0, 63, 56, 55] ∧
      [0, 1, 3, 55, 56, 57, 63, 64, 65, 119, 120, 127, 128].map blockCount = [1, 1, 1, 1, 2, 2, 2, 2, 2, 2, 3, 3, 3] := by
  decide
/-- The source's digest of the empty message (95_test_vectors.md 1.2). -/
theorem test_md4_empty :
    md4 [] = [0x31, 0xd6, 0xcf, 0xe0, 0xd1, 0x6a, 0xe9, 0x31, 0xb7, 0x3c, 0x59, 0xd7, 0xe0, 0xc0, 0x89, 0xc0] := by
  decide +kernel
/-- The source's digest of `"abc"`. -/
theorem test_md4_abc :
    md4 [0x61, 0x62, 0x63] =
      [0xa4, 0x48, 0x01, 0x7a, 0xaf, 0x21, 0xd8, 0x52, 0x5f, 0xc1, 0x0a, 0xe8, 0x7a, 0xa6, 0x72, 0x9d] := by
  decide +kernel
/-- R71 on the pattern of `UPDATE 'a'`, `0010 0001 0110 0001`. -/
theorem test_serial_bit_15_first :
    serialBits 0x2161 = [false, false, true, false, false, false, false, true, false, true, true, false, false, false, false,
      true] ∧ ofSerialBits (serialBits 0x2161) = 0x2161 := by decide
/-- 30_encoding.md R80: the assembler refuses an operand out of range. -/
theorem test_assembler_lines :
    assembleLine "  update 'a'   ; first byte".toList = some [0x2161] ∧ assembleLine "RDHEX 0x1F".toList = some [0x501F] ∧
      assembleLine "RDHEX 32".toList = none ∧ assembleLine "UPDATE 256".toList = none ∧
      assembleLine "UPDATES 1, 2".toList = some [0x2101, 0x2102] ∧ assembleLine ".word 0x7000".toList = some [0x7000] := by
  decide +kernel

/-- A placed command word and a placed sequencer pattern (`SEQ = 0x143`) run in the next step. -/
theorem test_placed_words_run :
    look (fun t => (t.buf, t.len)) (step (State.reset.withFetchWord 16 0x2161)) = some ([(0, 0x61)], 8) ∧
      look (fun t => (t.st.a, t.seq)) (step (State.reset.withFetchWord 10 0x143)) = some (0x10325476, ⟨.fin1, .mix, 4⟩) := by
  decide +kernel

/-! ## The memory form and the invariant at reset -/

theorem test_reset_memory_wf : Memory.wf State.reset.buf := by decide
theorem test_write_of_zero_unlists : Memory.write [(3, 0x80)] 3 0 = [] := by decide
theorem reset_inv : Inv State.reset :=
  ⟨by decide, by decide, by unfold seqOk; decide, by decide, by decide, by unfold blockOk; decide⟩
theorem busy_inv : Inv busy :=
  ⟨by decide, by decide, by unfold seqOk; decide, by decide, by decide, by unfold blockOk; decide⟩
theorem finalizedA_inv : Inv finalizedA :=
  ⟨by decide, by decide, by unfold seqOk; decide, by decide, by decide, by unfold blockOk; decide⟩

/-! ## Witnesses: the hypotheses of each statement met together -/

theorem witness_InstructionsDecodeBackFromTheirEncoding :
    (Instr.rdhex 31).isCommand = true ∧ (Instr.mixH .fin2 15).isCommand = false := by decide
theorem witness_DecodedCommandsEncodeBack : decodeCmd 0x21FF = .command (.update 0xFF) := by decide
theorem witness_CommandWordsMatchTheOpcodeMap :
    decodeCmd 0x501F = .command (.rdhex 31) ∧
      (⟨"RDHEX", 0xFFE0, 0x5000⟩ : OpcodeRow) ∈ commandRows ∧ (0x501F : CmdWord) &&& 0xFFE0 = 0x5000 := by decide
theorem witness_OperandsAreAssembledFromTheWord :
    decodeCmd 0x21FF = .command (.update 0xFF) ∧ decodeCmd 0x2100 = .command (.update 0) ∧
      decodeCmd 0x2000 = .command .updateE ∧ decodeCmd 0x400F = .command (.rddig 15) ∧
      decodeCmd 0x501F = .command (.rdhex 31) := by decide
theorem witness_IllegalWordsAnswerIllegal :
    decodeCmd 0x7000 = .illegal ∧ decodeCmd 0x2300 = .illegal ∧ decodeCmd 0x6100 = .illegal ∧ decodeCmd 0x2001 = .illegal ∧
      decodeCmd 0x4010 = .illegal ∧ decodeCmd 0x5020 = .illegal := by decide
/-- The boundary steps of the three rounds and of the last row. -/
theorem witness_SequencerStateSelectsTheMicroOp :
    (Machine.Seq.mk .fin1 .mix 15).t.toNat < 16 ∧ 16 ≤ (Machine.Seq.mk .fin1 .mix 16).t.toNat ∧ (Machine.Seq.mk .fin1 .mix 31).t.toNat < 32 ∧
      32 ≤ (Machine.Seq.mk .upd .mix 32).t.toNat ∧ (Machine.Seq.mk .upd .mix 47).t.toNat < 48 ∧
      48 ≤ (Machine.Seq.mk .upd .mix 48).t.toNat := by
  decide
/-- The largest operands and the next ones; bytes in and out of range; an ASCII, an empty and a non-ASCII text. -/
theorem witness_AssemblerProducesTheWords :
    (255 ≤ 255 ∧ ¬256 ≤ 255) ∧ (15 ≤ 15 ∧ ¬16 ≤ 15) ∧ (31 ≤ 31 ∧ ¬32 ≤ 31) ∧ (0xFFFF ≤ 0xFFFF ∧ ¬0x10000 ≤ 0xFFFF) ∧
      ([0, 255] ≠ [] ∧ ∀ b ∈ [0, 255], b ≤ 255) ∧ (¬∀ b ∈ [0, 256], b ≤ 255) ∧
      (∀ c ∈ ['a', 'z'], c.toNat < 128) ∧ (∀ c ∈ ([] : List Char), c.toNat < 128) ∧ ¬∀ c ∈ ['a', 'é'], c.toNat < 128 := by
  simp
/-- FIN = 1; FIN = 0 at FILL 63 and at FILL 62. -/
theorem witness_UpdateAbsorbsOneByte :
    finalizedA.fin = true ∧ ((filled 63).fin = false ∧ (filled 63).len.toNat / 8 % 64 = 63) ∧
      ((filled 62).fin = false ∧ (filled 62).len.toNat / 8 % 64 ≠ 63) := by decide
/-- FIN = 1; FIN = 0 at FILL 55 (length fits), 56 (it does not), and with bytes of each kind. -/
theorem witness_FinalizePadsAndStartsTheBlock :
    finalizedA.fin = true ∧
      ((filled 55).fin = false ∧ (filled 55).fill.toNat ≤ 55 ∧ 54 < (filled 55).fill.toNat) ∧
      ((filled 56).fin = false ∧ ¬(filled 56).fill.toNat ≤ 55 ∧ (filled 56).fill.toNat < 63) ∧
      ((filled 3).fill.toNat < 55 ∧ ¬((filled 3).fill.toNat ≤ 55 ∧ 56 ≤ 55)) := by decide
theorem witness_RddigReadsADigestByte : State.reset.fin = false ∧ finalizedA.fin = true := by decide
theorem witness_RdhexReadsAHexCharacter : State.reset.fin = false ∧ finalizedA.fin = true := by decide
theorem witness_ReadsRepeatAndUpdatesDoNot :
    (finalizedA.fin = true ∧ ∃ t, exec .finalize finalizedA = .next t) ∧ (∃ t, exec .init finalizedA = .next t) ∧
      ((filled 61).fin = false ∧ (filled 61).fill.toNat < 62 ∧
        ∃ t u, exec (.update 0x61) (filled 61) = .next t ∧ exec (.update 0x61) t = .next u) :=
  ⟨⟨rfl, _, rfl⟩, ⟨_, rfl⟩, rfl, by decide, _, _, rfl, rfl⟩
theorem witness_StatusesAreRaisedByTheirCauses :
    State.reset.cmdReady = true ∧ finalizedA.cmdReady = true ∧ finalizedA.fin = true ∧
      decodeCmd 0x2162 = .command (.update 0x62) ∧ decodeCmd 0x4000 = .command (.rddig 0) ∧ decodeCmd 0x7000 = .illegal ∧
      look (fun t => (t.rsp.valid, t.rsp.status)) (accept 0x2162 finalizedA) = some (true, .errFinalized) ∧
      look (fun t => (t.rsp.valid, t.rsp.status)) (accept 0x4000 State.reset) = some (true, .notReady) := by decide
theorem witness_ErrorResponsesChangeOnlyRsp :
    finalizedA.cmdReady = true ∧ ∃ t, accept 0x2162 finalizedA = .next t ∧ t.rsp.valid = true ∧ t.rsp.status ≠ .ok :=
  ⟨rfl, _, rfl, rfl, by decide⟩
/-- `ctx` meets the premise; steps 46 and 47 of the block take the two clauses of `MixEffect`. -/
theorem witness_MixStepsAddRotateAndShift :
    Ctx.fin2 ≠ .unused3 ∧ 16 * 2 + (14#4).toNat < 47 ∧ 16 * 2 + (15#4).toNat = 47 := by decide
theorem witness_FfwdAddsAndCompletes : 56 ≤ (filled 56).fill.toNat ∧ (filled 55).fill.toNat < 56 := by decide
theorem witness_RoundFunctionsBitByBit : 31 < 32 := by decide
theorem witness_RoundTableHasTheClosedForms : 47 < 48 ∧ 48 ≤ 48 := by decide
/-- Each of the three kinds of R187, without a sample and with one that is ready for a response; and a fault. -/
theorem witness_UnreachableSequencerStatesFault :
    (unreachableSeq ⟨.upd, .mix, 48⟩ ∧ unreachableSeq ⟨.unused3, .ffwd, 0⟩ ∧ unreachableSeq ⟨.fin2, .pad2, 47⟩) ∧
      NoResetNow { State.reset with seq := ⟨.upd, .mix, 48⟩ } ∧
      NoResetNow { answered with seq := ⟨.fin2, .pad2, 47⟩, inputs := [Pins.ready] } ∧
      step { State.reset with seq := ⟨.upd, .mix, 48⟩ } = .fault .unreachableRound :=
  ⟨by unfold unreachableSeq; decide, by simp [NoResetNow, State.reset], by simp [NoResetNow, Pins.ready], rfl⟩
theorem witness_ExactlyTheWellFormedInstructionsComplete :
    WellFormed (.mixH .fin2 15) ∧ ¬WellFormed (.mixH .unused3 15) ∧ WellFormed (.pad2 .fin1 63) ∧ ¬WellFormed (.pad2 .upd 0) := by
  decide
theorem witness_BlockRunComputesCompress : Ctx.upd ≠ .unused3 := by decide
theorem witness_AcceptedCommandIsRun :
    (offered State.reset 0x21FF).inputs = Pins.offer 0x21FF :: [] ∧ (Pins.offer 0x21FF).rst = false ∧
      (offered State.reset 0x21FF).cmdReady = true ∧ (Pins.offer 0x21FF).cmdValid = true ∧
      decodeCmd (Pins.offer 0x21FF).cmdData = .command (.update 0xFF) ∧ decodeCmd (Pins.offer 0xFFFF).cmdData = .illegal := by
  decide
theorem witness_BusyStepRunsTheMicroOp :
    NoResetOrTake busy ∧ decodeSeq busy.seq.word = .micro (.mixF .fin1 0) :=
  ⟨fun _ h => by simp [busy, State.reset] at h, by decide⟩
theorem witness_PlacedInstructionRunsNext : (Instr.mixF .unused3 3).isCommand = false := by decide
theorem witness_ResetLoadsEveryResetValue :
    ({ busy with inputs := [⟨true, true, 0x2161, true⟩] } : State).inputs = ⟨true, true, 0x2161, true⟩ :: [] ∧
      (Pins.mk true true 0x2161 true).rst = true := by decide
theorem witness_TakeDeliversThePendingResponse :
    ({ answered with inputs := [Pins.ready] } : State).inputs = Pins.ready :: [] ∧ Pins.ready.rst = false ∧
      Pins.ready.rspReady = true ∧ ({ answered with inputs := [Pins.ready] } : State).rsp.valid = true ∧
      ¬unreachableSeq answered.seq := by
  unfold unreachableSeq
  decide
theorem witness_OffersWaitUntilReady : busy.seq.phase ≠ .idle ∧ answered.rsp.valid = true := by decide
theorem witness_UntakenResponseLeavesTheCoreStuck :
    answered.seq.phase = .idle ∧ answered.rsp.valid = true ∧
      ∀ p ∈ ({ answered with inputs := [Pins.offer 0x6000, Pins.quiet] } : State).inputs, p.rst = false ∧ p.rspReady = false := by
  decide
theorem witness_BusyCoreDoesNotWaitForTheHost :
    Inv busy ∧ busy.seq.phase ≠ .idle ∧ Pins.quiet.rst = false ∧ (Pins.offer 0x1000).rst = false :=
  ⟨busy_inv, by decide, rfl, rfl⟩
theorem witness_EveryStepKeepsTheInvariant : Inv busy ∧ ∃ t, step busy = .next t := ⟨busy_inv, _, rfl⟩
theorem witness_InvariantStatesNeverFault : Inv busy := busy_inv
theorem witness_FinalizedDigestIsFrozen :
    Inv { finalizedA with inputs := [Pins.offer 0x2162] } ∧ finalizedA.fin = true ∧ NoReset [Pins.offer 0x2162] ∧
      (∀ p ∈ [Pins.offer 0x2162], p.cmdValid = true → p.cmdData ≠ 0x1000) ∧
      ∃ t, RunsTo 1 { finalizedA with inputs := [Pins.offer 0x2162] } t :=
  ⟨⟨by decide, by decide, by unfold seqOk; decide, by decide, by decide, by unfold blockOk; decide⟩, rfl,
    by unfold NoReset; decide, by decide, _, rfl⟩
/-- A step for each register: UPDATE at FILL 63 (SV, BUF and LEN), MIX (ST), and *take* (`delivered`). -/
theorem witness_RegistersHaveOnlyTheirWriters :
    (∃ t, step { filled 63 with sv := ⟨0, 0, 0, 1⟩, inputs := [Pins.offer 0x2162] } = .next t ∧
      t.sv ≠ ⟨0, 0, 0, 1⟩ ∧ t.buf ≠ [] ∧ t.len ≠ (filled 63).len) ∧
    (∃ t, step busy = .next t ∧ t.st ≠ busy.st) ∧
    (∃ t, step { answered with inputs := [Pins.ready] } = .next t ∧ t.delivered ≠ []) ∧
    (∀ p, [Pins.offer 0x2162].head? = some p → p.rst = false) :=
  ⟨⟨_, rfl, by decide, by decide, by decide⟩, ⟨_, rfl, by decide⟩, ⟨_, rfl, by decide⟩, by simp [Pins.offer]⟩
theorem witness_FinRisesOnlyWithTheLastBlock :
    (beforeFfwd.fin = false ∧ ∃ t, step beforeFfwd = .next t ∧ t.fin = true) ∧
      (finalizedA.fin = true ∧ ∃ t, step { finalizedA with inputs := [Pins.offer 0x1000] } = .next t ∧ t.fin = false) :=
  ⟨⟨rfl, _, rfl, rfl⟩, rfl, _, rfl, rfl⟩
/-- Two cores with FIN = 0 that differ in ST, SV, BUF and LEN outside FILL; and two with FIN = 1 that agree on ST. -/
theorem witness_HiddenStateStaysHidden :
    (sameToTheHost { filled 3 with inputs := [Pins.offer 0x6000] } { filled 67 with
        st := ⟨1, 2, 3, 4⟩, sv := ⟨5, 6, 7, 8⟩, buf := [(0, 0x61)], inputs := [Pins.offer 0x6000] } ∧
      (∃ t, RunsTo 1 { filled 3 with inputs := [Pins.offer 0x6000] } t) ∧
      ∀ m u, m < 1 → RunsTo m { filled 3 with inputs := [Pins.offer 0x6000] } u → u.fin = false) ∧
    (sameToTheHost { finalizedA with inputs := [Pins.offer 0x1000] } { finalizedA with
        sv := ⟨5, 6, 7, 8⟩, buf := [], len := 0x208, inputs := [Pins.offer 0x1000] } ∧
      (finalizedA.fin = true ∧ finalizedA.seq.phase = .idle) ∧
      ∃ t, RunsTo 1 { finalizedA with inputs := [Pins.offer 0x1000] } t) :=
  ⟨⟨by unfold sameToTheHost; decide, ⟨_, rfl⟩, fun m u hm h => by
    obtain rfl : m = 0 := by omega
    rw [runsTo_zero] at h
    rw [← h]
    rfl⟩, by unfold sameToTheHost; decide, ⟨rfl, rfl⟩, _, rfl⟩
/-- Two cores with one absorbed byte that differ in SV and in BUF after it. -/
theorem witness_UnusedStorageNeverShows :
    sameToTheHost { filled 1 with buf := [(0, 0x61)], inputs := [Pins.offer 0x3000] } { filled 1 with
        sv := ⟨5, 6, 7, 8⟩, buf := [(0, 0x61), (1, 0x77)], inputs := [Pins.offer 0x3000] } ∧
      sameMessage { filled 1 with buf := [(0, 0x61)], inputs := [Pins.offer 0x3000] } { filled 1 with
        sv := ⟨5, 6, 7, 8⟩, buf := [(0, 0x61), (1, 0x77)], inputs := [Pins.offer 0x3000] } ∧
      (filled 1).fin = false ∧ ∃ t, RunsTo 1 { filled 1 with buf := [(0, 0x61)], inputs := [Pins.offer 0x3000] } t :=
  ⟨by unfold sameToTheHost; decide, ⟨by decide, fun _ => ⟨by decide, by decide, by decide, by decide⟩⟩, rfl, _, rfl⟩
/-- A command with 0, two with 49 and one with 99 micro-steps. -/
theorem witness_CommandsTakeTheirMicroSteps :
    (Inv State.reset ∧ State.reset.cmdReady = true ∧ microSteps 0x6000 State.reset = 0 ∧ microSteps 0x3000 State.reset = 49) ∧
    (Inv (filled 63) ∧ (filled 63).cmdReady = true ∧ microSteps 0x2161 (filled 63) = 49) ∧
    (Inv (filled 56) ∧ (filled 56).cmdReady = true ∧ microSteps 0x3000 (filled 56) = 99) :=
  ⟨⟨reset_inv, by decide, by decide, by decide⟩,
    ⟨⟨by decide, by decide, by unfold seqOk; decide, by decide, by decide, by unfold blockOk; decide⟩, by decide, by decide⟩,
    ⟨by decide, by decide, by unfold seqOk; decide, by decide, by decide, by unfold blockOk; decide⟩, by decide, by decide⟩
theorem witness_EveryStepKeepsTheMixProgress : MixProgress busy ∧ ∃ t, step busy = .next t :=
  ⟨⟨by decide, by decide⟩, _, rfl⟩
/-- An idle state, a busy one, and the busy one under a reset. -/
theorem witness_EveryStepKeepsTheSimulation :
    (Simulates RefState.reset [] (started [Pins.offer 0x2161]) ∧ NoResetNow (started [Pins.offer 0x2161]) ∧
      ∃ t, step (started [Pins.offer 0x2161]) = .next t) ∧
    (Simulates ⟨[], true⟩ [⟨.ok, 0⟩] busy ∧ NoResetNow busy ∧ ∃ t, step busy = .next t) ∧
    (Simulates ⟨[], true⟩ [⟨.ok, 0⟩] { busy with inputs := [⟨true, false, 0, false⟩] } ∧
      ¬NoResetNow { busy with inputs := [⟨true, false, 0, false⟩] } ∧
      ∃ t, step { busy with inputs := [⟨true, false, 0, false⟩] } = .next t) := by
  have hi : Simulates RefState.reset [] (started [Pins.offer 0x2161]) :=
    ⟨⟨by decide, by decide, by unfold seqOk; decide, by decide, by decide, by unfold blockOk; decide⟩,
      ⟨by decide, by decide⟩, by decide, fun _ => ⟨⟨by decide, by decide, by decide, by decide, by decide⟩, by decide⟩,
      fun h => absurd rfl h⟩
  have hb : ∀ ins, ins = [] ∨ ins = [⟨true, false, 0, false⟩] →
      Simulates ⟨[], true⟩ [⟨.ok, 0⟩] { busy with inputs := ins } := by
    rintro ins (rfl | rfl) <;>
    exact ⟨⟨by decide, by decide, by unfold seqOk; decide, by decide, by decide, by unfold blockOk; decide⟩,
      ⟨by decide, by decide⟩, by decide, (fun h => by cases h),
      fun _ => ⟨by unfold BlockInProgress; decide +kernel, by decide, by decide⟩⟩
  refine ⟨⟨hi, ?_, _, rfl⟩, ⟨hb [] (.inl rfl), ?_, _, rfl⟩, hb _ (.inr rfl), ?_, _, rfl⟩ <;>
    simp [NoResetNow, started, busy, State.reset, Pins.offer]
/-- An idle end state with FIN = 0. -/
theorem witness_IdleStatesHoldTheMessage :
    NoReset [Pins.offer 0x2161] ∧ ∃ t, RunsTo 1 (started [Pins.offer 0x2161]) t ∧ t.seq.phase = .idle ∧ t.fin = false ∧
      t.len = 8 ∧ acceptedWords 1 (started [Pins.offer 0x2161]) = [0x2161] :=
  ⟨by unfold NoReset; decide, _, rfl, rfl, by decide, by decide, by decide⟩
/-- And one with FIN = 1: the empty message finalized, whose ST 95_test_vectors.md 2.5 gives. -/
theorem witness_IdleStatesHoldTheMessage_finalized :
    NoReset [Pins.offer 0x3000] ∧ ∃ t, RunsTo 50 (started [Pins.offer 0x3000]) t ∧ t.seq.phase = .idle ∧ t.fin = true ∧
      t.st = ⟨0xE0CFD631, 0x31E96AD1, 0xD7593CB7, 0xC089C0E0⟩ := by
  have h : look (fun t => (t.seq.phase, t.fin, t.st)) (run 50 (started [Pins.offer 0x3000])) =
      some (.idle, true, ⟨0xE0CFD631, 0x31E96AD1, 0xD7593CB7, 0xC089C0E0⟩) := by decide +kernel
  refine ⟨by unfold NoReset; decide, ?_⟩
  unfold RunsTo
  cases hr : run 50 (started [Pins.offer 0x3000]) with
  | next t =>
    rw [hr] at h
    simpa [look] using h
  | fault f =>
    rw [hr] at h
    cases h
  | refused f =>
    rw [hr] at h
    cases h
theorem witness_ResponsesEqualTheReferenceMachine :
    NoReset [Pins.offer 0x4000, Pins.ready] ∧ ∃ t, RunsTo 2 (started [Pins.offer 0x4000, Pins.ready]) t ∧
      t.seq.phase = .idle ∧ responsesSoFar t = [⟨.notReady, 0⟩] :=
  ⟨by unfold NoReset; decide, _, rfl, rfl, by decide⟩
theorem witness_ResponsesDependOnTheAcceptedWordsOnly :
    NoReset [Pins.offer 0x2161] ∧ NoReset [Pins.quiet, Pins.offer 0x2161] ∧
      (∃ t, RunsTo 1 (started [Pins.offer 0x2161]) t ∧ t.seq.phase = .idle) ∧
      (∃ t, RunsTo 2 (started [Pins.quiet, Pins.offer 0x2161]) t ∧ t.seq.phase = .idle) ∧
      acceptedWords 1 (started [Pins.offer 0x2161]) = acceptedWords 2 (started [Pins.quiet, Pins.offer 0x2161]) :=
  ⟨by unfold NoReset; decide, by unfold NoReset; decide, ⟨_, rfl, rfl⟩, ⟨_, rfl, rfl⟩, by decide⟩
/-- From reset with an UPDATE.E before the byte, and after an INIT without one. -/
theorem witness_ChunkingDoesNotMatter :
    NoReset [Pins.offer 0x2000, Pins.ready, Pins.offer 0x2161] ∧ NoReset [Pins.offer 0x1000, Pins.ready, Pins.offer 0x2161] ∧
      (∃ t, RunsTo 3 (started [Pins.offer 0x2000, Pins.ready, Pins.offer 0x2161]) t ∧ t.seq.phase = .idle) ∧
      (∃ t, RunsTo 3 (started [Pins.offer 0x1000, Pins.ready, Pins.offer 0x2161]) t ∧ t.seq.phase = .idle) ∧
      acceptedWords 3 (started [Pins.offer 0x2000, Pins.ready, Pins.offer 0x2161]) = [] ++ [0x2000, 0x2161] ∧
      acceptedWords 3 (started [Pins.offer 0x1000, Pins.ready, Pins.offer 0x2161]) = [0x1000] ++ [0x2161] ∧
      AtMessageStart [] ∧ AtMessageStart [0x1000] ∧ OnlyUpdates [0x2000, 0x2161] ∧ OnlyUpdates [0x2161] ∧
      updateBytes [0x2000, 0x2161] = updateBytes [0x2161] := by
  have h : decodeCmd 0x2000 = .command .updateE := by decide
  have h' : decodeCmd 0x2161 = .command (.update 0x61) := by decide
  exact ⟨by unfold NoReset; decide, by unfold NoReset; decide, ⟨_, rfl, rfl⟩, ⟨_, rfl, rfl⟩, by decide, by decide, .inl rfl,
    .inr rfl, by intro w hw; fin_cases hw; exacts [.inl h, .inr ⟨_, h'⟩],
    by intro w hw; fin_cases hw; exact .inr ⟨_, h'⟩, by decide⟩

end Sys2Proof.Tests
end

section
/-! PROOFS. The reset state (spec 10_state.md R36): the values it stores, and the two the spec derives from them. -/
namespace Sys2Proof.Machine

/-! ## The values assembled from the state -/

/-- STATUS with an empty block and FIN clear (R34). -/
theorem statusByte_eq_zero {s : State} (hfill : s.fill = 0) (hfin : s.fin = false) : s.statusByte = 0x00 := by
  simp [State.statusByte, hfill, hfin]

@[simp] theorem reset_fill : State.reset.fill = 0 := resetCore_fill State.reset

@[simp] theorem reset_statusByte : State.reset.statusByte = 0x00 := statusByte_eq_zero reset_fill rfl

@[simp] theorem reset_cmdReady : State.reset.cmdReady = true := (cmdReady_iff State.reset).mpr ⟨rfl, rfl⟩

/-! ## The table of R36 -/

/-- Settles O33: the stored fields are read off the reset state, BUF by its law for an unlisted index, and STATUS and
`cmd_ready` follow from FILL, FIN, the phase and RSP.valid. -/
theorem resetStateHasTheSpecsValues : Obligations.ResetStateHasTheSpecsValues :=
  have hst : State.reset.st = ⟨0x67452301, 0xEFCDAB89, 0x98BADCFE, 0x10325476⟩ := rfl
  have hbuf : ∀ a, Memory.read State.reset.buf a = 0x00 := read_nil
  ⟨hst, rfl, hbuf, rfl, rfl, rfl, rfl, reset_statusByte, reset_cmdReady⟩

end Sys2Proof.Machine
end

section
/-! PROOFS. The command words (spec 30_encoding.md R72 to R76): the decoder inverts the encoder, a word is legal exactly
where it matches a row of the opcode map, and an illegal word answers ILLEGAL. -/
namespace Sys2Proof.Machine

/-! ## Decode and encode on the commands -/

/-- A command word is put together from its four fields (R70). -/
theorem toNat_eq_fields (w : CmdWord) :
    w.toNat = 4096 * (opcField w).toNat + 512 * (rsvField w).toNat + 256 * (vField w).toNat + (immField w).toNat := by
  obtain ⟨ho, hr, hv, hm⟩ := fields_toNat w
  omega

/-- An index is all of IMM8 where the bits above it are 0 (R73: neither scaled nor shifted). -/
theorem low_toNat_of_high_eq_zero {b : Byte} {k : Nat} (hk : k ≤ 8) (h : b.extractLsb' k (8 - k) = 0) :
    (b.extractLsb' 0 k).toNat = b.toNat := by
  have hlt : b.toNat / 2 ^ k < 2 ^ (8 - k) := by
    rw [Nat.div_lt_iff_lt_mul (by positivity), ← Nat.pow_add, Nat.sub_add_cancel hk]
    exact b.isLt
  have hdiv : b.toNat / 2 ^ k = 0 := by
    simpa [Nat.shiftRight_eq_div_pow, Nat.mod_eq_of_lt hlt] using congrArg BitVec.toNat h
  simp [Nat.mod_eq_of_lt (Nat.lt_of_div_eq_zero (by positivity) hdiv)]

/-- Only the encoding of a command decodes to it (R74). -/
theorem encode_eq_of_decodeCmd {w : CmdWord} {i : Instr} (h : decodeCmd w = .command i) : encode i = w := by
  obtain ⟨hr, hcases⟩ := decodeCmd_cases h
  apply BitVec.eq_of_toNat_eq
  rw [toNat_eq_fields w, hr]
  obtain ⟨ho, rfl, hv, hm⟩ | ⟨ho, rfl, hv, hm⟩ | ⟨ho, rfl, hv⟩ | ⟨ho, rfl, hv, hm⟩ | ⟨ho, rfl, hv, hm⟩ |
    ⟨ho, rfl, hv, hm⟩ | ⟨ho, rfl, hv, hm⟩ | ⟨ho, rfl, hv, hm⟩ := hcases
  · rw [ho, hv, hm]; rfl
  · rw [ho, hv, hm]; rfl
  · rw [ho, hv, encode_update_toNat]; rfl
  · rw [ho, hv, hm]; rfl
  · rw [ho, hv, hm]; rfl
  · rw [ho, hv, encode_rddig_toNat, low_toNat_of_high_eq_zero (by decide) hm]; rfl
  · rw [ho, hv, encode_rdhex_toNat, low_toNat_of_high_eq_zero (by decide) hm]; rfl
  · rw [ho, hv, hm]; rfl

/-- A command's encoding decodes to it, with every operand (R74). -/
theorem decodeCmd_encode {i : Instr} (hi : i.isCommand = true) : decodeCmd (encode i) = .command i := by
  cases i with
  | nop => rfl
  | init => rfl
  | update d => revert d; decide
  | updateE => rfl
  | finalize => rfl
  | rddig j => revert j; decide
  | rdhex j => revert j; decide
  | rdstat => rfl
  | mixF c i => cases hi
  | mixG c i => cases hi
  | mixH c i => cases hi
  | ffwd c t => cases hi
  | pad2 c t => cases hi

theorem isCommand_of_decodeCmd {w : CmdWord} {i : Instr} (h : decodeCmd w = .command i) : i.isCommand = true := by
  by_contra hi
  exact decodeCmd_isCommand w i (by simpa using hi) h

/-! ## The rows of the opcode map -/

/-- A mask that drops the low `k` bits leaves the number with those bits 0. -/
theorem toNat_and_highMask (w : CmdWord) (k : Nat) :
    (w &&& (BitVec.allOnes 16 <<< k)).toNat = w.toNat / 2 ^ k * 2 ^ k := by
  have hle : w.toNat / 2 ^ k * 2 ^ k < 2 ^ 16 := lt_of_le_of_lt (Nat.div_mul_le_self _ _) w.isLt
  rw [← BitVec.shiftLeft_ushiftRight, BitVec.toNat_shiftLeft, BitVec.toNat_ushiftRight, Nat.shiftLeft_eq,
    Nat.shiftRight_eq_div_pow, Nat.mod_eq_of_lt hle]

/-- R72's test for a row with a `k`-bit operand compares what stands above the operand. -/
theorem matches_highMask_iff (w p : CmdWord) (k : Nat) (hp : p.toNat / 2 ^ k * 2 ^ k = p.toNat) :
    w &&& (BitVec.allOnes 16 <<< k) = p ↔ w.toNat / 2 ^ k = p.toNat / 2 ^ k := by
  rw [← BitVec.toNat_inj, toNat_and_highMask]
  constructor
  · intro h
    rw [← h, Nat.mul_div_cancel _ (by positivity)]
  · intro h
    rw [h, hp]

theorem matches_update_iff (w : CmdWord) : w &&& 0xFF00 = 0x2100 ↔ w.toNat / 256 = 0x21 :=
  matches_highMask_iff w 0x2100 8 rfl

theorem matches_rddig_iff (w : CmdWord) : w &&& 0xFFF0 = 0x4000 ↔ w.toNat / 16 = 0x400 :=
  matches_highMask_iff w 0x4000 4 rfl

theorem matches_rdhex_iff (w : CmdWord) : w &&& 0xFFE0 = 0x5000 ↔ w.toNat / 32 = 0x280 :=
  matches_highMask_iff w 0x5000 5 rfl

/-- A row without an operand fixes the whole word. -/
theorem matches_whole_iff (w p : CmdWord) : w &&& 0xFFFF = p ↔ w = p := by
  rw [show w &&& 0xFFFF = w from BitVec.and_allOnes]

/-- A word that matches a row is the encoding of a command with that row's mnemonic. -/
theorem exists_encode_of_matches {w : CmdWord} {r : OpcodeRow} (hr : r ∈ commandRows) (h : w &&& r.mask = r.pattern) :
    ∃ i : Instr, i.isCommand = true ∧ mnemonicOf i = r.mnemonic ∧ encode i = w := by
  simp only [commandRows, List.mem_cons, List.not_mem_nil, or_false] at hr
  obtain rfl | rfl | rfl | rfl | rfl | rfl | rfl | rfl := hr
  · exact ⟨.nop, rfl, rfl, ((matches_whole_iff w _).mp h).symm⟩
  · exact ⟨.init, rfl, rfl, ((matches_whole_iff w _).mp h).symm⟩
  · have hw := (matches_update_iff w).mp h
    obtain ⟨-, -, -, himm⟩ := fields_toNat w
    refine ⟨.update (immField w), rfl, rfl, BitVec.eq_of_toNat_eq ?_⟩
    rw [encode_update_toNat, himm]
    omega
  · exact ⟨.updateE, rfl, rfl, ((matches_whole_iff w _).mp h).symm⟩
  · exact ⟨.finalize, rfl, rfl, ((matches_whole_iff w _).mp h).symm⟩
  · have hw := (matches_rddig_iff w).mp h
    refine ⟨.rddig (w.extractLsb' 0 4), rfl, rfl, BitVec.eq_of_toNat_eq ?_⟩
    rw [encode_rddig_toNat, BitVec.extractLsb'_toNat, Nat.shiftRight_zero]
    omega
  · have hw := (matches_rdhex_iff w).mp h
    refine ⟨.rdhex (w.extractLsb' 0 5), rfl, rfl, BitVec.eq_of_toNat_eq ?_⟩
    rw [encode_rdhex_toNat, BitVec.extractLsb'_toNat, Nat.shiftRight_zero]
    omega
  · exact ⟨.rdstat, rfl, rfl, ((matches_whole_iff w _).mp h).symm⟩

/-- Every instruction's encoding matches the row of its mnemonic (R72, R82). -/
theorem encode_in_row : ∀ i : Instr, Laws.EncodingInRow.Statement i
  | .nop => Laws.EncodingInRow.nop
  | .init => Laws.EncodingInRow.init
  | .update d => Laws.EncodingInRow.update d
  | .updateE => Laws.EncodingInRow.updateE
  | .finalize => Laws.EncodingInRow.finalize
  | .rddig j => Laws.EncodingInRow.rddig j
  | .rdhex j => Laws.EncodingInRow.rdhex j
  | .rdstat => Laws.EncodingInRow.rdstat
  | .mixF c i => Laws.EncodingInRow.mixF c i
  | .mixG c i => Laws.EncodingInRow.mixG c i
  | .mixH c i => Laws.EncodingInRow.mixH c i
  | .ffwd c t => Laws.EncodingInRow.ffwd c t
  | .pad2 c t => Laws.EncodingInRow.pad2 c t

/-- The rows of R82 carry the mnemonics of the micro-operations, so none is a command's. -/
theorem not_mem_microRows {r : OpcodeRow} {i : Instr} (hi : i.isCommand = true) (hm : r.mnemonic = mnemonicOf i) :
    r ∉ microRows := by
  intro hr
  have h : mnemonicOf i ∈ microRows.map OpcodeRow.mnemonic := hm ▸ List.mem_map_of_mem hr
  cases i <;> simp [microRows, mnemonicOf, Instr.isCommand] at h hi

/-- Settles O3: a decoded word is its command's encoding, which is in that command's row; and a word in a row is the
encoding of a command, which decodes to that command. -/
theorem commandWordsMatchTheOpcodeMap : Obligations.CommandWordsMatchTheOpcodeMap := by
  unfold Obligations.CommandWordsMatchTheOpcodeMap
  intro w
  constructor
  · intro i h
    obtain ⟨r, hr, hm, hmatch⟩ := encode_in_row i
    have hnot := not_mem_microRows (isCommand_of_decodeCmd h) hm
    refine ⟨r, (List.mem_append.mp hr).resolve_right hnot, hm, ?_⟩
    rw [← encode_eq_of_decodeCmd h]
    exact eq_of_beq hmatch
  · intro r hr h
    obtain ⟨i, hi, hm, rfl⟩ := exists_encode_of_matches hr h
    exact ⟨i, decodeCmd_encode hi, hm⟩

/-! ## The operands -/

/-- Settles O4: a decoded word is its command's encoding, whose number is the row's pattern plus the operand. -/
theorem operandsAreAssembledFromTheWord : Obligations.OperandsAreAssembledFromTheWord := by
  unfold Obligations.OperandsAreAssembledFromTheWord
  intro w
  refine ⟨fun d h => ?_, fun h => ?_, fun j h => ?_, fun j h => ?_⟩
  · rw [← encode_eq_of_decodeCmd h, encode_update_toNat]
    omega
  · rw [← encode_eq_of_decodeCmd h]
    decide
  · rw [← encode_eq_of_decodeCmd h, encode_rddig_toNat]
    omega
  · rw [← encode_eq_of_decodeCmd h, encode_rdhex_toNat]
    omega

/-! ## Illegal words -/

/-- The illegal words are those in no row of the opcode map (R72, R76). -/
theorem decodeCmd_eq_illegal_iff (w : CmdWord) :
    decodeCmd w = .illegal ↔ ∀ r ∈ commandRows, w &&& r.mask ≠ r.pattern := by
  obtain ⟨hrow, hcmd⟩ := commandWordsMatchTheOpcodeMap w
  constructor
  · intro h r hr hmatch
    obtain ⟨i, hi, -⟩ := hcmd r hr hmatch
    rw [h] at hi
    cases hi
  · intro h
    cases hd : decodeCmd w with
    | illegal => rfl
    | command i =>
      obtain ⟨r, hr, -, hmatch⟩ := hrow i hd
      exact absurd hmatch (h r hr)

/-- The rows as ranges of numbers, so the illegal words are those outside of them. -/
theorem decodeCmd_eq_illegal_iff_toNat (w : CmdWord) :
    decodeCmd w = .illegal ↔
      w.toNat ≠ 0x0000 ∧ w.toNat ≠ 0x1000 ∧ w.toNat / 256 ≠ 0x21 ∧ w.toNat ≠ 0x2000 ∧ w.toNat ≠ 0x3000 ∧
        w.toNat / 16 ≠ 0x400 ∧ w.toNat / 32 ≠ 0x280 ∧ w.toNat ≠ 0x6000 := by
  simp only [decodeCmd_eq_illegal_iff, commandRows, List.forall_mem_cons, ne_eq, matches_whole_iff, matches_update_iff,
    matches_rddig_iff, matches_rdhex_iff]
  simp [← BitVec.toNat_inj]

/-- The acceptance action of an illegal word (R203). -/
theorem accept_illegal {w : CmdWord} (h : decodeCmd w = .illegal) (s : State) :
    accept w s = .next (respond .illegal 0x00 s) := by
  rw [accept, h]
  rfl

/-- Settles O5: outside the rows' ranges of numbers, a field has a value that R76 names, and the other way round. -/
theorem illegalWordsAnswerIllegal : Obligations.IllegalWordsAnswerIllegal := by
  unfold Obligations.IllegalWordsAnswerIllegal
  intro w s
  refine ⟨?_, fun h => accept_illegal h s⟩
  rw [decodeCmd_eq_illegal_iff_toNat]
  simp only [List.mem_cons, List.not_mem_nil, or_false]
  omega

end Sys2Proof.Machine
end

section
/-! PROOFS. The commands that answer at once, and UPDATE (spec 40_commands.md R101 to R104, R106 to R108): each command's
answer as an equation, the values it answers as numbers, then the statements. -/
namespace Sys2Proof.Machine
open Sys2Proof.Claims

/-! ## What each command answers -/

theorem exec_nop (s : State) : exec .nop s = .next (respond .ok 0x00 s) := rfl

theorem exec_init (s : State) :
    exec .init s = .next (respond .ok 0x00 { s with st := iv, len := 0, fin := false }) := rfl

theorem exec_rdstat (s : State) : exec .rdstat s = .next (respond .ok s.statusByte s) := rfl

theorem exec_update_of_fin {s : State} (hfin : s.fin = true) (d : Byte) :
    exec (.update d) s = .next (respond .errFinalized 0x00 s) := by
  simp [exec, execUpdate, hfin]

/-- The 64th byte of a block starts its compression (R103). -/
theorem exec_update_of_fill_eq {s : State} (hfin : s.fin = false) (hfill : s.fill = 63) (d : Byte) :
    exec (.update d) s = .next (blockStart .upd (absorb d s)) := by
  simp [exec, execUpdate, hfin, hfill]

theorem exec_update_of_fill_ne {s : State} (hfin : s.fin = false) (hfill : s.fill ≠ 63) (d : Byte) :
    exec (.update d) s = .next (respond .ok 0x00 (absorb d s)) := by
  rw [exec, execUpdate, if_neg (by simp [hfin]), if_neg hfill]

theorem exec_updateE (s : State) :
    exec .updateE s = .next (respond (if s.fin then .errFinalized else .ok) 0x00 s) := by
  cases hfin : s.fin with
  | false => simp [exec, execUpdateE, hfin]
  | true => simp [exec, execUpdateE, hfin]

theorem exec_rddig_of_fin {s : State} (hfin : s.fin = true) (j : BitVec 4) :
    exec (.rddig j) s = .next (respond .ok (digestByte s.st j) s) := by
  simp [exec, execRddig, hfin]

theorem exec_rddig_of_not_fin {s : State} (hfin : s.fin = false) (j : BitVec 4) :
    exec (.rddig j) s = .next (respond .notReady 0x00 s) := by
  simp [exec, execRddig, hfin]

theorem exec_rdhex_of_fin {s : State} (hfin : s.fin = true) (j : BitVec 5) :
    exec (.rdhex j) s = .next (respond .ok (digestHexChar s.st j) s) := by
  simp [exec, execRdhex, hfin]

theorem exec_rdhex_of_not_fin {s : State} (hfin : s.fin = false) (j : BitVec 5) :
    exec (.rdhex j) s = .next (respond .notReady 0x00 s) := by
  simp [exec, execRdhex, hfin]

/-! ## FILL, STATUS and the absorbed byte as numbers -/

/-- FILL is `floor(LEN / 8) mod 64` (R24). -/
theorem fill_toNat (s : State) : s.fill.toNat = s.len.toNat / 8 % 64 := by
  simp [State.fill, Nat.shiftRight_eq_div_pow]

theorem fill_eq_63_iff (s : State) : s.fill = 63 ↔ s.len.toNat / 8 % 64 = 63 := by
  rw [← BitVec.toNat_inj, fill_toNat]
  rfl

/-- FIN is one bit below FILL, so the OR of R34 is a sum. -/
theorem statusByte_toNat (s : State) : s.statusByte.toNat = 2 * s.fill.toNat + s.fin.toNat := by
  have hfill := s.fill.isLt
  have hfin : s.fin.toNat < 2 ^ 1 := Bool.toNat_lt s.fin
  have hshift : (s.fill.zeroExtend 8 <<< 1).toNat = s.fill.toNat <<< 1 := by
    simp [Nat.shiftLeft_eq]
    omega
  have hbit : ((BitVec.ofBool s.fin).zeroExtend 8).toNat = s.fin.toNat := by
    simp
    omega
  rw [State.statusByte, BitVec.toNat_or, hshift, hbit, ← Nat.shiftLeft_add_eq_or_of_lt hfin, Nat.shiftLeft_eq]
  omega

/-- The byte at FILL is the absorbed one, and every other byte of BUF is kept (R103). -/
theorem read_absorb (d : Byte) (s : State) (a : Nat) :
    Memory.read (absorb d s).buf a = if a = s.len.toNat / 8 % 64 then d else Memory.read s.buf a := by
  rw [absorb_buf, read_write, fill_toNat]

theorem absorb_len_toNat (d : Byte) (s : State) : (absorb d s).len.toNat = (s.len.toNat + 8) % 2 ^ 64 := by
  rw [absorb_len, BitVec.toNat_add]
  rfl

/-! ## The digest as numbers -/

/-- Byte `p` of a word is its little-endian byte value (R10). -/
theorem wordByte_toNat (w : Word) (p : Nat) : (wordByte w p).toNat = byteValue w.toNat p := by
  rw [wordByte, BitVec.extractLsb'_toNat, Nat.shiftRight_eq_div_pow, Nat.pow_mul]
  rfl

/-- The four codes of a word select A, B, C and D in that order (R20). -/
theorem word_eq_getD (r : Quad) (q : BitVec 2) : r.word q = (wordList r).getD q.toNat 0 := by
  have hq : q = 0 ∨ q = 1 ∨ q = 2 ∨ q = 3 := by
    revert q
    decide
  obtain rfl | rfl | rfl | rfl := hq
  · rfl
  · rfl
  · rfl
  · rfl

/-- Digest byte `j` (R54, R106). -/
theorem digestByte_toNat (st : Quad) (j : BitVec 4) :
    (digestByte st j).toNat = byteValue ((wordList st).getD (j.toNat / 4) 0).toNat (j.toNat % 4) := by
  have hword : (j.extractLsb' 2 2).toNat = j.toNat / 4 := by
    simp [Nat.shiftRight_eq_div_pow]
    omega
  have hbyte : (j.extractLsb' 0 2).toNat = j.toNat % 4 := by simp
  rw [digestByte, wordByte_toNat, word_eq_getD, hword, hbyte]

theorem nibbleFor_toNat (b : Byte) (odd : BitVec 1) :
    (nibbleFor b odd).toNat = b.toNat / (if odd.toNat = 0 then 16 else 1) % 16 := by
  have hodd : odd.toNat = 0 ↔ odd = 0 := BitVec.toNat_inj (y := 0)
  by_cases h : odd = 0
  · simp [nibbleFor, h, Nat.shiftRight_eq_div_pow]
  · rw [nibbleFor, if_neg h, if_neg (mt hodd.mp h)]
    simp

/-- `hexchar(n)` is an ASCII digit or a lowercase letter (R107). -/
theorem hexChar_toNat (n : BitVec 4) :
    (hexChar n).toNat = if n.toNat < 10 then 0x30 + n.toNat else 0x61 + (n.toNat - 10) := by
  revert n
  decide

/-- Hex character `j` shows a nibble of digest byte `floor(j / 2)`, the high one for an even `j` (R107). -/
theorem digestHexChar_nibble_toNat (st : Quad) (j : BitVec 5) :
    (nibbleFor (digestByte st (j.extractLsb' 1 4)) (j.extractLsb' 0 1)).toNat =
      byteValue ((wordList st).getD (j.toNat / 8) 0).toNat (j.toNat / 2 % 4) / (if j.toNat % 2 = 0 then 16 else 1) % 16 := by
  have hindex : (j.extractLsb' 1 4).toNat = j.toNat / 2 := by
    simp [Nat.shiftRight_eq_div_pow]
    omega
  have hodd : (j.extractLsb' 0 1).toNat = j.toNat % 2 := by simp
  rw [nibbleFor_toNat, digestByte_toNat, hindex, hodd, Nat.div_div_eq_div_mul]

/-! ## The statements -/

/-- Settles O12: with FIN = 0 both outcomes hold the absorbed byte; at FILL 63 the block starts, below it OK is answered. -/
theorem updateAbsorbsOneByte : Obligations.UpdateAbsorbsOneByte := by
  unfold Obligations.UpdateAbsorbsOneByte
  intro d s
  refine ⟨fun hfin => exec_update_of_fin hfin d, fun hfin => ?_⟩
  have hat : Memory.read (absorb d s).buf (s.len.toNat / 8 % 64) = d := by rw [read_absorb, if_pos rfl]
  have hother : ∀ a, a ≠ s.len.toNat / 8 % 64 → Memory.read (absorb d s).buf a = Memory.read s.buf a :=
    fun a ha => by rw [read_absorb, if_neg ha]
  have hlen := absorb_len_toNat d s
  by_cases hfill : s.len.toNat / 8 % 64 = 63
  · exact ⟨_, exec_update_of_fill_eq hfin ((fill_eq_63_iff s).mpr hfill) d, hat, hother, hlen, rfl, rfl, rfl, rfl,
      fun _ => ⟨rfl, rfl, rfl⟩, fun hne => absurd hfill hne⟩
  · exact ⟨_, exec_update_of_fill_ne hfin (mt (fill_eq_63_iff s).mp hfill) d, hat, hother, hlen, rfl, rfl, rfl, rfl,
      fun heq => absurd heq hfill, fun _ => ⟨rfl, rfl, rfl⟩⟩

/-- Settles O15: the two answers of RDDIG, and the digest byte as a number. -/
theorem rddigReadsADigestByte : Obligations.RddigReadsADigestByte := by
  unfold Obligations.RddigReadsADigestByte
  intro j s
  exact ⟨fun hfin => exec_rddig_of_not_fin hfin j, fun hfin => ⟨_, exec_rddig_of_fin hfin j, digestByte_toNat s.st j⟩⟩

/-- Settles O16: the two answers of RDHEX, the nibble that `j` selects and its character as numbers. -/
theorem rdhexReadsAHexCharacter : Obligations.RdhexReadsAHexCharacter := by
  unfold Obligations.RdhexReadsAHexCharacter
  intro j s
  exact ⟨fun hfin => exec_rdhex_of_not_fin hfin j,
    fun hfin => ⟨_, _, exec_rdhex_of_fin hfin j, digestHexChar_nibble_toNat s.st j, hexChar_toNat _⟩⟩

/-- Settles O17: STATUS as a sum, with FILL below 64. -/
theorem rdstatAssemblesStatus : Obligations.RdstatAssemblesStatus := by
  unfold Obligations.RdstatAssemblesStatus
  intro s
  have hstatus : s.statusByte.toNat = 2 * (s.len.toNat / 8 % 64) + (if s.fin then 1 else 0) := by
    rw [statusByte_toNat, fill_toNat, Bool.toNat, Bool.cond_eq_ite]
  refine ⟨_, exec_rdstat s, hstatus, ?_⟩
  rw [hstatus]
  split <;> omega

/-- Settles O10: NOP is its response. -/
theorem nopOnlyAnswersOk : Obligations.NopOnlyAnswersOk := exec_nop

/-- Settles O11: INIT writes the initial value, and `respond` adds the response. -/
theorem initStartsANewMessage : Obligations.InitStartsANewMessage := exec_init

/-- Settles O13: UPDATE.E is its response, with the status that FIN selects. -/
theorem emptyUpdateOnlyAnswers : Obligations.EmptyUpdateOnlyAnswers := exec_updateE

end Sys2Proof.Machine
end

section
/-! PROOFS. The padding (spec 41_padding_scheduler.md R142, R145, R147): the length field as numbers, the bytes of BUF
that the two padding writes leave, the count of zeros of `pad`, then the statements. -/
namespace Sys2Proof.Machine
open Sys2Proof.Claims

/-! ## The length field -/

/-- `LE64(v)` lists the bytes of `v` from the least significant (R10). -/
theorem le64Bytes_eq_map (v : BitVec 64) : le64Bytes v = (List.range 8).map (fun p => v.extractLsb' (8 * p) 8) := rfl

theorem extractLsb'_byte_eq (v : BitVec 64) (p : Nat) : v.extractLsb' (8 * p) 8 = BitVec.ofNat 8 (byteValue v.toNat p) := by
  apply BitVec.eq_of_toNat_eq
  simp [byteValue, Nat.shiftRight_eq_div_pow, Nat.pow_mul]

theorem le64Bytes_eq_map_byteValue (v : BitVec 64) :
    le64Bytes v = (List.range 8).map (fun p => BitVec.ofNat 8 (byteValue v.toNat p)) := by
  simp only [le64Bytes_eq_map, extractLsb'_byte_eq]

theorem getD_le64Bytes_toNat (v : BitVec 64) {p : Nat} (hp : p < 8) :
    ((le64Bytes v).getD p 0).toNat = byteValue v.toNat p := by
  simp [le64Bytes_eq_map_byteValue, hp, byteValue]

/-! ## BUF after the padding writes -/

/-- With room for it, PAD1 ends the block with the length field (R145). -/
theorem read_pad1Buf_length (m : Memory) {f p : Nat} (len : BitVec 64) (hf : f ≤ 55) (hp : p < 8) :
    (Memory.read (pad1Buf m f len) (56 + p)).toNat = byteValue len.toNat p := by
  rw [read_pad1Buf _ _ _ _ (by omega) (by omega), if_pos ⟨hf, by omega⟩, Nat.add_sub_cancel_left,
    getD_le64Bytes_toNat len hp]

/-- PAD1 keeps inside the block. -/
theorem read_pad1Buf_of_le (m : Memory) {f b : Nat} (len : BitVec 64) (hf : f < 64) (hb : 64 ≤ b) :
    Memory.read (pad1Buf m f len) b = Memory.read m b := by
  have hzeroed : Memory.read (Memory.fillZero (Memory.write m f 0x80) (f + 1) (63 - f)) b = Memory.read m b := by
    rw [read_fillZero, if_neg (by omega), read_write, if_neg (by omega)]
  by_cases h55 : f ≤ 55
  · simpa [pad1Buf, h55, read_writeLength, Nat.not_lt.mpr hb] using hzeroed
  · simpa [pad1Buf, h55] using hzeroed

theorem read_pad2Buf_length (m : Memory) (len : BitVec 64) {p : Nat} (hp : p < 8) :
    (Memory.read (pad2Buf m len) (56 + p)).toNat = byteValue len.toNat p := by
  rw [read_pad2Buf _ _ _ (by omega), if_pos (by omega), Nat.add_sub_cancel_left, getD_le64Bytes_toNat len hp]

/-- PAD2 keeps inside the block. -/
theorem read_pad2Buf_of_le (m : Memory) (len : BitVec 64) {b : Nat} (hb : 64 ≤ b) :
    Memory.read (pad2Buf m len) b = Memory.read m b := by
  rw [pad2Buf, read_writeLength, if_neg (by omega), read_fillZero, if_neg (by omega)]

/-! ## FINALIZE and PAD2 -/

theorem exec_finalize_of_fin {s : State} (hfin : s.fin = true) : exec .finalize s = .next (respond .ok 0x00 s) := by
  simp [exec, execFinalize, hfin]

theorem exec_finalize_of_not_fin {s : State} (hfin : s.fin = false) :
    exec .finalize s = .next (blockStart .fin1 (pad1 s)) := by
  simp [exec, execFinalize, hfin]

theorem exec_pad2_fin1 (t : BitVec 6) (s : State) :
    exec (.pad2 .fin1 t) s = .next (blockStart .fin2 { s with buf := pad2Buf s.buf s.len }) := rfl

/-- Settles O14: the bytes of BUF that PAD1 leaves, range by range; BLOCKSTART touches only SV and SEQ. -/
theorem finalizePadsAndStartsTheBlock : Obligations.FinalizePadsAndStartsTheBlock := by
  unfold Obligations.FinalizePadsAndStartsTheBlock
  intro s
  refine ⟨fun hfin => exec_finalize_of_fin hfin, fun hfin => ?_⟩
  have hfill : s.fill.toNat < 64 := s.fill.isLt
  refine ⟨_, exec_finalize_of_not_fin hfin, ?below, ?marker, ?zeros, ?length, ?outside,
    rfl, rfl, rfl, rfl, rfl, rfl, rfl, rfl⟩
  case below =>
    intro a ha hlength
    rw [blockStart_buf, pad1_buf, read_pad1Buf _ _ _ _ hfill (by omega), if_neg hlength, if_pos ha]
  case marker =>
    rw [blockStart_buf, pad1_buf, read_pad1Buf _ _ _ _ hfill hfill, if_neg (by omega), if_neg (by omega), if_pos rfl]
  case zeros =>
    intro a ha h64 hlength
    rw [blockStart_buf, pad1_buf, read_pad1Buf _ _ _ _ hfill h64, if_neg hlength, if_neg (by omega), if_neg (by omega)]
  case length => exact fun h55 p hp => read_pad1Buf_length s.buf s.len h55 hp
  case outside => exact fun a ha => read_pad1Buf_of_le s.buf s.len hfill ha

/-- Settles O23: the bytes of BUF that PAD2 leaves, range by range; BLOCKSTART touches only SV and SEQ. -/
theorem pad2WritesTheSecondBlock : Obligations.Pad2WritesTheSecondBlock := by
  unfold Obligations.Pad2WritesTheSecondBlock
  intro t6 s
  refine ⟨_, exec_pad2_fin1 t6 s, ?zeros, ?length, ?outside, rfl, rfl, rfl, rfl, rfl, rfl, rfl, rfl⟩
  case zeros =>
    intro a ha
    rw [blockStart_buf, read_pad2Buf _ _ _ (by omega), if_neg (by omega)]
  case length => exact fun p hp => read_pad2Buf_length s.buf s.len hp
  case outside => exact fun a ha => read_pad2Buf_of_le s.buf s.len ha

/-! ## The padding of a message -/

theorem padZeros_lt (l : Nat) : padZeros l < 64 := by
  unfold padZeros
  omega

/-- The counts of zeros that reach 56 modulo 64 are one residue class, and `padZeros` is its element below 64. -/
theorem reaches_56_iff (l z : Nat) : (l + 1 + z) % 64 = 56 ↔ z % 64 = padZeros l := by
  unfold padZeros
  omega

theorem bitLength_toNat (m : List Byte) : (bitLength m).toNat = 8 * m.length % 2 ^ 64 := BitVec.toNat_ofNat _ _

/-- Settles O47: of the counts that reach 56 modulo 64, the one below 64 is the least, as the remainder of each. -/
theorem paddingUsesTheFewestZeros : Obligations.PaddingUsesTheFewestZeros := by
  unfold Obligations.PaddingUsesTheFewestZeros
  intro m
  refine ⟨padZeros m.length, ?bytes, ?reaches, ?least, Nat.le_of_lt_succ (padZeros_lt m.length)⟩
  case bytes => rw [pad, le64Bytes_eq_map_byteValue, bitLength_toNat]
  case reaches => exact (reaches_56_iff _ _).mpr (Nat.mod_eq_of_lt (padZeros_lt m.length))
  case least =>
    intro z hz
    rw [← (reaches_56_iff _ _).mp hz]
    exact Nat.mod_le z 64

end Sys2Proof.Machine
end

section
/-! PROOFS. The round mixer (spec 42_round_mixer.md R170 to R187): the round functions bit by bit, a mix step and the
feed-forward in numbers, and the sequencer states in which a step faults. -/
namespace Sys2Proof.Machine
open Sys2Proof.Claims

/-! ## The round functions on one bit -/

theorem getLsbD_fnF (x y z : Word) {n : Nat} (hn : n < 32) :
    (fnF x y z).getLsbD n = if x.getLsbD n then y.getLsbD n else z.getLsbD n := by
  simp only [fnF, BitVec.getLsbD_or, BitVec.getLsbD_and, BitVec.getLsbD_not, hn, decide_true, Bool.true_and]
  cases x.getLsbD n <;> simp

theorem getLsbD_fnG (x y z : Word) (n : Nat) :
    (fnG x y z).getLsbD n = decide (2 ≤ (x.getLsbD n).toNat + (y.getLsbD n).toNat + (z.getLsbD n).toNat) := by
  have hmajority : ∀ a b c : Bool, (a && b || a && c || b && c) = decide (2 ≤ a.toNat + b.toNat + c.toNat) := by decide
  simp only [fnG, BitVec.getLsbD_or, BitVec.getLsbD_and, hmajority]

theorem getLsbD_fnH (x y z : Word) (n : Nat) :
    (fnH x y z).getLsbD n = decide (((x.getLsbD n).toNat + (y.getLsbD n).toNat + (z.getLsbD n).toNat) % 2 = 1) := by
  have hparity : ∀ a b c : Bool, (a ^^ b ^^ c) = decide ((a.toNat + b.toNat + c.toNat) % 2 = 1) := by decide
  simp only [fnH, BitVec.getLsbD_xor, hparity]

/-- Settles O24: each bit of a round function is the same function of the three bits. -/
theorem roundFunctionsBitByBit : Obligations.RoundFunctionsBitByBit := by
  unfold Obligations.RoundFunctionsBitByBit
  intro x y z n hn
  exact ⟨getLsbD_fnF x y z hn, getLsbD_fnG x y z n, getLsbD_fnH x y z n⟩

/-! ## Rotations and words as numbers -/

/-- The two halves of a rotation share no bit, so the OR of R9 is a sum. -/
theorem rotl32_toNat (x : Word) {k : Nat} (hk : k ≤ 32) : (rotl32 x k).toNat = rotlNat x.toNat k := by
  have hhigh : x.toNat * 2 ^ k % 2 ^ 32 = (x.toNat % 2 ^ (32 - k)) <<< k := by
    rw [Nat.shiftLeft_eq, ← Nat.mul_mod_mul_right, ← Nat.pow_add, Nat.sub_add_cancel hk]
  have hlow : x.toNat / 2 ^ (32 - k) < 2 ^ k := by
    rw [Nat.div_lt_iff_lt_mul (by positivity), ← Nat.pow_add, Nat.add_sub_cancel' hk]
    exact x.isLt
  rw [rotl32, rotlNat, BitVec.toNat_or, BitVec.toNat_shiftLeft, BitVec.toNat_ushiftRight, Nat.shiftLeft_eq,
    Nat.shiftRight_eq_div_pow, hhigh, Nat.shiftLeft_add_eq_or_of_lt hlow]

/-- Concatenation puts its first operand above the second. -/
theorem append_toNat {m n : Nat} (x : BitVec m) (y : BitVec n) : (x ++ y).toNat = x.toNat * 2 ^ n + y.toNat := by
  rw [BitVec.toNat_append, ← Nat.shiftLeft_add_eq_or_of_lt y.isLt, Nat.shiftLeft_eq]

/-- The scheduler's word is the little-endian number of its four bytes (R52). -/
theorem messageWord_toNat (m : Memory) (k : Nat) : (messageWord m k).toNat = messageNat m k := by
  rw [messageWord, messageNat, le32]
  simp only [append_toNat]
  omega

/-! ## The mix step -/

/-- The function of round `r` (R173). -/
def roundFn (r : Nat) : RoundFn := if r = 0 then .f else if r = 1 then .g else .h

/-- The ROM entry of step `i` of round `r` by the closed forms of R173 to R176. -/
def closedFormEntry (r i : Nat) : RomEntry :=
  ⟨roundFn r, wordIndex r i, rotationAmount r i, BitVec.ofNat 32 (roundConstant r)⟩

/-- The 48 entries of R177 are the closed forms. -/
theorem rom_eq_closedFormEntry {r i : Nat} (hr : r < 3) (hi : i < 16) : rom (16 * r + i) = some (closedFormEntry r i) := by
  have hrom : ∀ r < 3, ∀ i < 16, rom (16 * r + i) = some (closedFormEntry r i) := by decide
  exact hrom r hr i hi

theorem roundFn_apply (r : Nat) (q : Quad) : (roundFn r).apply q.b q.c q.d = roundMix r q := by
  unfold roundFn roundMix
  split
  · rfl
  · split <;> rfl

theorem roundConstant_lt (r : Nat) : roundConstant r < 2 ^ 32 := by
  unfold roundConstant
  split_ifs <;> decide

theorem rotationAmount_le {r i : Nat} (hr : r < 3) : rotationAmount r i ≤ 32 := by
  have hamount : ∀ r < 3, ∀ j < 4, rotationAmount r j ≤ 32 := by decide
  simpa [rotationAmount] using hamount r hr (i % 4) (Nat.mod_lt i (by decide))

/-- The add chain and the rotate of R178 in numbers. -/
theorem mixWord_closedFormEntry_toNat {r i : Nat} (hr : r < 3) (s : State) :
    (mixWord (closedFormEntry r i) (messageWord s.buf (wordIndex r i)) s.st).toNat = newWordNat r i s := by
  have hconst : (BitVec.ofNat 32 (roundConstant r)).toNat = roundConstant r :=
    Nat.mod_eq_of_lt (roundConstant_lt r)
  rw [mixWord, closedFormEntry, rotl32_toNat _ (rotationAmount_le hr), newWordNat, roundFn_apply]
  simp only [BitVec.toNat_add, Nat.mod_add_mod, messageWord_toNat, hconst]

@[simp] theorem advanceStep_ctx (t : BitVec 6) (q : Seq) : (advanceStep t q).ctx = q.ctx := by
  unfold advanceStep
  split <;> rfl

theorem advanceStep_of_lt {t : BitVec 6} (ht : t.toNat < 47) (q : Seq) : advanceStep t q = { q with t := t + 1 } :=
  if_pos ht

theorem advanceStep_of_le {t : BitVec 6} (ht : 47 ≤ t.toNat) (q : Seq) : advanceStep t q = { q with phase := .ffwd } :=
  if_neg (Nat.not_lt.mpr ht)

/-- A mix step whose number is its round and its step within the round does what R178 to R180 say. -/
theorem mixStep_mixEffect {ctx : Ctx} (hctx : ctx ≠ .unused3) {r : BitVec 2} (hr : r.toNat < 3) (i : BitVec 4) (s : State) :
    ∃ t, mixStep ctx (r ++ i) s = .next t ∧ MixEffect r.toNat i.toNat s t := by
  have hstep : (r ++ i).toNat = 16 * r.toNat + i.toNat := by rw [append_toNat, Nat.mul_comm]; rfl
  have hrom : rom (r ++ i).toNat = some (closedFormEntry r.toNat i.toNat) := by
    rw [hstep, rom_eq_closedFormEntry hr i.isLt]
  refine ⟨_, mixStep_next hctx hrom s, rfl, mixWord_closedFormEntry_toNat hr s, rfl, rfl, advanceStep_ctx _ _,
    ?counts, ?leaves, rfl, rfl, rfl, rfl, rfl, rfl, rfl⟩
  case counts =>
    intro hlt
    rw [mixWith_seq, advanceStep_of_lt (by omega)]
    refine ⟨rfl, ?_⟩
    rw [← hstep]
    exact BitVec.toNat_add_of_lt (y := 1#6) (by rw [hstep]; show _ + 1 < 64; omega)
  case leaves =>
    intro hlast
    rw [mixWith_seq, advanceStep_of_le (by omega)]
    exact ⟨rfl, rfl⟩

/-- Settles O21: MIX_F, MIX_G and MIX_H are the mix step of rounds 0, 1 and 2. -/
theorem mixStepsAddRotateAndShift : Obligations.MixStepsAddRotateAndShift := by
  unfold Obligations.MixStepsAddRotateAndShift
  intro ctx i s hctx
  exact ⟨mixStep_mixEffect hctx (r := 0) (by decide) i s, mixStep_mixEffect hctx (r := 1) (by decide) i s,
    mixStep_mixEffect hctx (r := 2) (by decide) i s⟩

/-! ## The feed-forward -/

/-- With no room for the length field a second padded block follows (R146). -/
theorem exec_ffwd_fin1_of_le {s : State} (hfill : 56 ≤ s.fill.toNat) (t : BitVec 6) :
    exec (.ffwd .fin1 t) s = .next (setPhase .pad2 { s with st := s.st.add s.sv }) := if_pos hfill

theorem exec_ffwd_fin1_of_lt {s : State} (hfill : s.fill.toNat < 56) (t : BitVec 6) :
    exec (.ffwd .fin1 t) s = .next (finishOk { s with st := s.st.add s.sv, fin := true }) :=
  if_neg (Nat.not_le.mpr hfill)

theorem exec_ffwd_upd (t : BitVec 6) (s : State) :
    exec (.ffwd .upd t) s = .next (finishOk { s with st := s.st.add s.sv }) := rfl

theorem exec_ffwd_fin2 (t : BitVec 6) (s : State) :
    exec (.ffwd .fin2 t) s = .next (finishOk { s with st := s.st.add s.sv, fin := true }) := rfl

theorem exec_ffwd_unused3 (t : BitVec 6) (s : State) : exec (.ffwd .unused3 t) s = .fault .unreachableCtx := rfl

/-- Addition on words wraps, each on its own (R181). -/
theorem feedForward_add (s : State) : FeedForward s (s.st.add s.sv) :=
  ⟨BitVec.toNat_add _ _, BitVec.toNat_add _ _, BitVec.toNat_add _ _, BitVec.toNat_add _ _⟩

/-- Settles O22: FFWD leaves the sums in ST and completes, context by context. -/
theorem ffwdAddsAndCompletes : Obligations.FfwdAddsAndCompletes := by
  unfold Obligations.FfwdAddsAndCompletes
  intro t6 s
  exact ⟨s.st.add s.sv, feedForward_add s, exec_ffwd_upd t6 s, fun hfill => exec_ffwd_fin1_of_le hfill t6,
    fun hfill => exec_ffwd_fin1_of_lt hfill t6, exec_ffwd_fin2 t6 s, exec_ffwd_unused3 t6 s⟩

/-! ## Where a step faults -/

/-- The sequencer's fault test is R187's list. -/
theorem unreachableSeq_iff (q : Seq) : unreachableSeq q ↔ ∃ f, seqFault q = some f := by
  rw [← Option.ne_none_iff_exists', ne_eq, seqFault_eq_none, unreachableSeq]
  cases hphase : q.phase with
  | idle => simp
  | mix => simp [or_iff_not_imp_left]
  | ffwd => simp
  | pad2 => simp [or_iff_not_imp_left]

/-- Accepting a word never stops the machine. -/
theorem accept_total (w : CmdWord) (s : State) : ∃ t, accept w s = .next t := by
  obtain ⟨_, _, h⟩ | ⟨_, h⟩ | ⟨_, _, _, _, h⟩ | ⟨_, _, _, _, h⟩ | ⟨_, _, h⟩ := accept_cases w s
  all_goals exact ⟨_, h⟩

/-- Outside the states of R187 every event has a next state. -/
theorem eventStep_total {s : State} (hseq : seqFault s.seq = none) (p : Pins) : ∃ t, eventStep p s = .next t := by
  obtain ⟨-, -, h⟩ | ⟨-, -, h⟩ | ⟨-, h⟩ | ⟨hbusy, h⟩ := eventStep_cases p s
  · exact ⟨_, h⟩
  · rw [h]; exact accept_total _ s
  · exact ⟨_, h⟩
  · rw [h]; exact internalStep_total hseq hbusy

theorem internalStep_eq_fault_iff {s : State} {f : Fault} : internalStep s = .fault f ↔ seqFault s.seq = some f := by
  refine ⟨fun h => ?_, internalStep_fault⟩
  cases hseq : seqFault s.seq with
  | some g => rw [internalStep_fault hseq] at h; cases h; rfl
  | none =>
    by_cases hidle : s.seq.phase = .idle
    · rw [internalStep_idle hidle] at h; cases h
    · obtain ⟨t, ht⟩ := internalStep_total hseq hidle
      rw [ht] at h; cases h

/-- Reset comes before the fault, and the fault before every other event (R205, R214). -/
theorem pinStep_eq_fault_iff {p : Pins} {s : State} {f : Fault} :
    pinStep p s = .fault f ↔ p.rst = false ∧ seqFault s.seq = some f := by
  cases hrst : p.rst with
  | true => simp [pinStep, hrst]
  | false =>
    cases hseq : seqFault s.seq with
    | some g => simp [pinStep, hrst, hseq]
    | none =>
      obtain ⟨t, ht⟩ := eventStep_total hseq p
      simp [pinStep, hrst, hseq, ht]

/-- A step is the fault of the sequencer state it starts in, unless reset comes. -/
theorem step_eq_fault_iff {s : State} {f : Fault} : step s = .fault f ↔ seqFault s.seq = some f ∧ NoResetNow s := by
  cases hins : s.inputs with
  | nil => simp [step, hins, internalStep_eq_fault_iff, NoResetNow]
  | cons p rest => simp [step, hins, pinStep_eq_fault_iff, NoResetNow, and_comm]

/-- Settles O26: a step's fault is `seqFault`'s, and `seqFault` finds R187's states. -/
theorem unreachableSequencerStatesFault : Obligations.UnreachableSequencerStatesFault := by
  unfold Obligations.UnreachableSequencerStatesFault
  intro s
  constructor
  · intro hseq hreset
    obtain ⟨f, hf⟩ := (unreachableSeq_iff s.seq).mp hseq
    exact ⟨f, step_eq_fault_iff.mpr ⟨hf, hreset⟩⟩
  · intro f hstep
    obtain ⟨hf, hreset⟩ := step_eq_fault_iff.mp hstep
    exact ⟨(unreachableSeq_iff s.seq).mpr ⟨f, hf⟩, hreset⟩

end Sys2Proof.Machine
end

section
/-! PROOFS. The two decoders and the encoder together (spec 30_encoding.md R72 to R75, R82): the sequencer word as a
number, the micro-operation of each phase and round, and that no micro-operation's pattern is a command word. -/
namespace Sys2Proof.Machine

/-! ## SEQ as a word -/

/-- The ten bits of SEQ as a number (R82). -/
theorem seqWord_toNat (q : Seq) :
    q.word.toNat = 256 * (ctxBits q.ctx).toNat + 64 * (phaseBits q.phase).toNat + q.t.toNat := by
  rw [Seq.word, seqWord, append_toNat, append_toNat]
  omega

/-- A step number within its round (R27). -/
theorem stepInRound_eq {t : BitVec 6} {r : Nat} (hr : 16 * r ≤ t.toNat) :
    t.extractLsb' 0 4 = BitVec.ofNat 4 (t.toNat - 16 * r) := by
  apply BitVec.eq_of_toNat_eq
  simp
  omega

/-! ## The micro-operation of a sequencer state -/

theorem decodeSeq_mix_of_lt {t : BitVec 6} (ht : t.toNat < 16) (c : Ctx) :
    decodeSeq (Seq.word ⟨c, .mix, t⟩) = .micro (.mixF c (BitVec.ofNat 4 t.toNat)) := by
  obtain ⟨h0, -, -, -⟩ := round_of_step t
  rw [decodeSeq_mix, if_pos (h0.mp ht), stepInRound_eq (r := 0) (by omega), Nat.mul_zero, Nat.sub_zero]

theorem decodeSeq_mix_of_round1 {t : BitVec 6} (hle : 16 ≤ t.toNat) (hlt : t.toNat < 32) (c : Ctx) :
    decodeSeq (Seq.word ⟨c, .mix, t⟩) = .micro (.mixG c (BitVec.ofNat 4 (t.toNat - 16))) := by
  obtain ⟨-, h1, -, -⟩ := round_of_step t
  rw [decodeSeq_mix, h1.mp ⟨hle, hlt⟩, stepInRound_eq (r := 1) (by omega)]
  rfl

theorem decodeSeq_mix_of_round2 {t : BitVec 6} (hle : 32 ≤ t.toNat) (hlt : t.toNat < 48) (c : Ctx) :
    decodeSeq (Seq.word ⟨c, .mix, t⟩) = .micro (.mixH c (BitVec.ofNat 4 (t.toNat - 32))) := by
  obtain ⟨-, -, h2, -⟩ := round_of_step t
  rw [decodeSeq_mix, h2.mp ⟨hle, hlt⟩, stepInRound_eq (r := 2) (by omega)]
  rfl

theorem decodeSeq_mix_of_le {t : BitVec 6} (ht : 48 ≤ t.toNat) (c : Ctx) :
    decodeSeq (Seq.word ⟨c, .mix, t⟩) = .noRow := by
  obtain ⟨-, -, -, h3⟩ := round_of_step t
  rw [decodeSeq_mix, h3.mp ht]
  rfl

/-- Settles O8: SEQ's fields stand one above the other in its word, and the decoder's laws give each phase and round. -/
theorem sequencerStateSelectsTheMicroOp : Obligations.SequencerStateSelectsTheMicroOp := by
  unfold Obligations.SequencerStateSelectsTheMicroOp
  rintro ⟨c, p, t⟩
  refine ⟨seqWord_toNat _, ?_, ?_, ?_, ?_, ?_, ?_, ?_⟩
  · rintro rfl
    exact decodeSeq_idle c t
  · rintro rfl ht
    exact decodeSeq_mix_of_lt ht c
  · rintro rfl hle hlt
    exact decodeSeq_mix_of_round1 hle hlt c
  · rintro rfl hle hlt
    exact decodeSeq_mix_of_round2 hle hlt c
  · rintro rfl ht
    exact decodeSeq_mix_of_le ht c
  · rintro rfl
    exact decodeSeq_ffwd c t
  · rintro rfl
    exact decodeSeq_pad2 c t

/-! ## The micro-operations' patterns -/

/-- A micro-operation is encoded as the pattern of a busy sequencer state that decodes to it (R82). -/
theorem exists_seq_of_not_isCommand {i : Instr} (hi : i.isCommand = false) :
    ∃ q : Seq, q.phase ≠ .idle ∧ encode i = 0#6 ++ q.word ∧ decodeSeq q.word = .micro i := by
  cases i with
  | mixF c j =>
    refine ⟨⟨c, .mix, 0#2 ++ j⟩, nofun, rfl, ?_⟩
    rw [decodeSeq_mix, BitVec.extractLsb'_append_eq_left, BitVec.extractLsb'_append_eq_right]
    rfl
  | mixG c j =>
    refine ⟨⟨c, .mix, 1#2 ++ j⟩, nofun, rfl, ?_⟩
    rw [decodeSeq_mix, BitVec.extractLsb'_append_eq_left, BitVec.extractLsb'_append_eq_right]
    rfl
  | mixH c j =>
    refine ⟨⟨c, .mix, 2#2 ++ j⟩, nofun, rfl, ?_⟩
    rw [decodeSeq_mix, BitVec.extractLsb'_append_eq_left, BitVec.extractLsb'_append_eq_right]
    rfl
  | ffwd c t => exact ⟨⟨c, .ffwd, t⟩, nofun, rfl, decodeSeq_ffwd c t⟩
  | pad2 c t => exact ⟨⟨c, .pad2, t⟩, nofun, rfl, decodeSeq_pad2 c t⟩
  | nop | init | update _ | updateE | finalize | rddig _ | rdhex _ | rdstat => cases hi

/-- A pattern is below 1024 and, outside IDLE, not below 64, where the only command word is NOP's 0. -/
theorem decodeCmd_pattern_eq_illegal {q : Seq} (hq : q.phase ≠ .idle) : decodeCmd (0#6 ++ q.word) = .illegal := by
  have hphase : 1 ≤ (phaseBits q.phase).toNat := by
    cases hp : q.phase with
    | idle => exact absurd hp hq
    | mix | ffwd | pad2 => decide
  have hword := seqWord_toNat q
  have hlt := q.word.isLt
  rw [decodeCmd_eq_illegal_iff_toNat, append_toNat, BitVec.toNat_ofNat]
  omega

/-- The decoder of both formats reads a pattern by the sequencer's decoder. -/
theorem decodeTable_pattern {q : Seq} (hq : q.phase ≠ .idle) {i : Instr} (hi : decodeSeq q.word = .micro i) :
    decodeTable (0#6 ++ q.word) = some i := by
  rw [decodeTable, decodeCmd_pattern_eq_illegal hq]
  dsimp only
  rw [BitVec.extractLsb'_append_eq_left, BitVec.extractLsb'_append_eq_right, hi]
  rfl

theorem decodeTable_command {w : CmdWord} {i : Instr} (h : decodeCmd w = .command i) : decodeTable w = some i := by
  rw [decodeTable, h]

theorem decodeTable_encode (i : Instr) : decodeTable (encode i) = some i := by
  cases hi : i.isCommand with
  | true => exact decodeTable_command (decodeCmd_encode hi)
  | false =>
    obtain ⟨q, hq, hword, hdec⟩ := exists_seq_of_not_isCommand hi
    rw [hword, decodeTable_pattern hq hdec]

/-- All sixteen bits of a word are the word. -/
theorem decodeTableWord_toNat (w : CmdWord) : decodeTableWord 16 w.toNat = decodeTable w := by
  rw [decodeTableWord, Nat.mod_eq_of_lt w.isLt, if_pos w.isLt, BitVec.ofNat_toNat, BitVec.setWidth_eq]

/-- Settles O1: a command is read back from its word; a micro-operation's pattern is an illegal command word, and the
sequencer's decoder reads it back. -/
theorem instructionsDecodeBackFromTheirEncoding : Obligations.InstructionsDecodeBackFromTheirEncoding := by
  unfold Obligations.InstructionsDecodeBackFromTheirEncoding
  intro i
  refine ⟨decodeTable_encode i, ?_, decodeCmd_encode, fun hi => ?_⟩
  · rw [decodeTableWord_toNat, decodeTable_encode]
  · obtain ⟨q, hq, hword, hdec⟩ := exists_seq_of_not_isCommand hi
    rw [hword, BitVec.extractLsb'_append_eq_right]
    exact ⟨decodeCmd_pattern_eq_illegal hq, hdec⟩

/-! ## Command words -/

theorem wellFormed_of_isCommand {i : Instr} (hi : i.isCommand = true) : WellFormed i := by
  cases i with
  | nop | init | update _ | updateE | finalize | rddig _ | rdhex _ | rdstat => rfl
  | mixF | mixG | mixH | ffwd | pad2 => cases hi

/-- Settles O2: only a command's encoding decodes to it, and a command has no condition. -/
theorem decodedCommandsEncodeBack : Obligations.DecodedCommandsEncodeBack := by
  unfold Obligations.DecodedCommandsEncodeBack
  intro w i h
  have hi := isCommand_of_decodeCmd h
  exact ⟨encode_eq_of_decodeCmd h, hi, wellFormed_of_isCommand hi⟩

/-- Two rows ask different values of the bits that both of them fix. -/
def RowsClash (r r' : OpcodeRow) : Prop := r.pattern &&& r'.mask ≠ r'.pattern &&& r.mask

theorem not_matches_both_of_clash {r r' : OpcodeRow} (h : RowsClash r r') (w : CmdWord) :
    ¬(w &&& r.mask = r.pattern ∧ w &&& r'.mask = r'.pattern) := by
  rintro ⟨hr, hr'⟩
  apply h
  rw [← hr, ← hr', BitVec.and_assoc, BitVec.and_assoc, BitVec.and_comm r.mask]

theorem commandRows_pairwise_clash : commandRows.Pairwise RowsClash := by
  unfold RowsClash
  decide

theorem microRows_pairwise_clash : microRows.Pairwise RowsClash := by
  unfold RowsClash
  decide

/-- Settles O6: any two rows of a format clash in the bits both of them fix. -/
theorem opcodePatternsDoNotOverlap : Obligations.OpcodePatternsDoNotOverlap :=
  ⟨commandRows_pairwise_clash.imp not_matches_both_of_clash, microRows_pairwise_clash.imp not_matches_both_of_clash⟩

/-- Settles O7: the words are the encodings, or SEQ's words, of the instructions they stand for. -/
theorem writtenWordsDecode : Obligations.WrittenWordsDecode :=
  ⟨decodeCmd_encode (i := .nop) rfl, decodeCmd_encode (i := .init) rfl, decodeCmd_encode (i := .update 0x61) rfl,
    decodeCmd_encode (i := .updateE) rfl, decodeCmd_encode (i := .finalize) rfl, decodeCmd_encode (i := .rddig 11) rfl,
    decodeCmd_encode (i := .rdhex 25) rfl, decodeCmd_encode (i := .rdstat) rfl,
    decodeSeq_mix_of_lt (t := 5) (by decide) .fin1, decodeSeq_mix_of_round1 (t := 28) (by decide) (by decide) .fin2,
    decodeSeq_mix_of_round2 (t := 47) (by decide) (by decide) .upd, decodeSeq_ffwd .fin1 47, decodeSeq_pad2 .fin1 47⟩

end Sys2Proof.Machine
end

section
/-! PROOFS. The step, event by event (spec 40_commands.md R100, R109, R110; 42_round_mixer.md R186;
70_reset_and_hazards.md R230, R234, R235): which event a sample brings as an equation, the inversion of a step with the
word it accepts, then the statements about the ports. -/
namespace Sys2Proof.Machine
open Sys2Proof.Claims Sys2Proof.Safety

/-! ## One sample -/

theorem pinStep_reset {p : Pins} (hrst : p.rst = true) (s : State) : pinStep p s = .next (resetCore s) := if_pos hrst

theorem pinStep_eq_eventStep {p : Pins} {s : State} (hrst : p.rst = false) (hseq : seqFault s.seq = none) :
    pinStep p s = eventStep p s := by
  simp [pinStep, hrst, hseq]

theorem eventStep_take {p : Pins} {s : State} (hvalid : s.rsp.valid = true) (hready : p.rspReady = true) :
    eventStep p s = .next (take s) := by
  simp [eventStep, hvalid, hready]

theorem eventStep_accept {p : Pins} {s : State} (hready : s.cmdReady = true) (hvalid : p.cmdValid = true) :
    eventStep p s = accept p.cmdData s := by
  obtain ⟨-, hrsp⟩ := (cmdReady_iff s).mp hready
  simp [eventStep, hrsp, hready, hvalid]

/-- An idle core that can neither be taken from nor accept holds its state (R215). -/
theorem eventStep_hold {p : Pins} {s : State} (hidle : s.seq.phase = .idle) (htake : s.rsp.valid = true → p.rspReady = false)
    (haccept : s.cmdReady = true → p.cmdValid = false) : eventStep p s = .next s := by
  have hnoTake : (s.rsp.valid && p.rspReady) = false := by simpa using htake
  have hnoAccept : (s.cmdReady && p.cmdValid) = false := by simpa using haccept
  simp [eventStep, hnoTake, hnoAccept, hidle]

theorem cmdReady_of_busy {s : State} (hbusy : s.seq.phase ≠ .idle) : s.cmdReady = false := by
  simp [State.cmdReady, hbusy]

theorem cmdReady_of_pending {s : State} (hvalid : s.rsp.valid = true) : s.cmdReady = false := by
  simp [State.cmdReady, hvalid]

/-- In a busy core the sample brings the micro-step (R186), which is the fault in a state of R187. -/
theorem pinStep_busy {p : Pins} {s : State} (hrst : p.rst = false) (htake : s.rsp.valid = true → p.rspReady = false)
    (hbusy : s.seq.phase ≠ .idle) : pinStep p s = internalStep s := by
  cases hseq : seqFault s.seq with
  | some f => simp [pinStep, hrst, hseq, internalStep_fault hseq]
  | none =>
    rw [pinStep_eq_eventStep hrst hseq, eventStep, cmdReady_of_busy hbusy, if_neg, if_neg (by simp), if_neg hbusy]
    simpa using htake

/-! ## One step -/

theorem afterSample_of_nil {s : State} (h : s.inputs = []) : afterSample s = s := by
  cases s
  cases h
  rfl

theorem step_nil {s : State} (h : s.inputs = []) : step s = internalStep s := by rw [step, h]

theorem step_cons {s : State} {p : Pins} {rest : List Pins} (h : s.inputs = p :: rest) :
    step s = pinStep p (afterSample s) := by
  rw [step, h, afterSample, h]
  rfl

theorem step_busy {s : State} (hhost : NoResetOrTake s) (hbusy : s.seq.phase ≠ .idle) :
    step s = internalStep (afterSample s) := by
  match hins : s.inputs with
  | [] => rw [step_nil hins, afterSample_of_nil hins]
  | p :: rest =>
    obtain ⟨hrst, htake⟩ := hhost p (by rw [hins]; rfl)
    rw [step_cons hins]
    exact pinStep_busy (s := afterSample s) hrst htake hbusy

theorem step_reset {s : State} {p : Pins} {rest : List Pins} (hins : s.inputs = p :: rest) (hrst : p.rst = true) :
    step s = .next (resetCore (afterSample s)) := by
  rw [step_cons hins, pinStep_reset hrst]

theorem step_take {s : State} {p : Pins} {rest : List Pins} (hins : s.inputs = p :: rest) (hrst : p.rst = false)
    (hseq : seqFault s.seq = none) (hvalid : s.rsp.valid = true) (hready : p.rspReady = true) :
    step s = .next (take (afterSample s)) := by
  rw [step_cons hins, pinStep_eq_eventStep (s := afterSample s) hrst hseq]
  exact eventStep_take (s := afterSample s) hvalid hready

theorem step_accept {s : State} {p : Pins} {rest : List Pins} (hins : s.inputs = p :: rest) (hrst : p.rst = false)
    (hready : s.cmdReady = true) (hvalid : p.cmdValid = true) : step s = accept p.cmdData (afterSample s) := by
  obtain ⟨hidle, -⟩ := (cmdReady_iff s).mp hready
  rw [step_cons hins, pinStep_eq_eventStep (s := afterSample s) hrst (seqFault_idle hidle)]
  exact eventStep_accept (s := afterSample s) hready hvalid

theorem step_hold {s : State} {p : Pins} {rest : List Pins} (hins : s.inputs = p :: rest) (hrst : p.rst = false)
    (hidle : s.seq.phase = .idle) (htake : s.rsp.valid = true → p.rspReady = false)
    (haccept : s.cmdReady = true → p.cmdValid = false) : step s = .next (afterSample s) := by
  rw [step_cons hins, pinStep_eq_eventStep (s := afterSample s) hrst (seqFault_idle hidle)]
  exact eventStep_hold (s := afterSample s) hidle htake haccept

/-! ## The word a step accepts -/

theorem accept_command {w : CmdWord} {i : Instr} (h : decodeCmd w = .command i) (s : State) : accept w s = exec i s := by
  rw [accept, h]

theorem acceptedNow_of_accept {s : State} {p : Pins} {rest : List Pins} (hins : s.inputs = p :: rest) (hrst : p.rst = false)
    (hready : s.cmdReady = true) (hvalid : p.cmdValid = true) : acceptedNow s = [p.cmdData] := by
  simp [acceptedNow, hins, hrst, hready, hvalid]

theorem acceptedNow_of_not_ready {s : State} (hready : s.cmdReady = false) : acceptedNow s = [] := by
  cases hins : s.inputs with
  | nil => simp [acceptedNow, hins]
  | cons p rest => simp [acceptedNow, hins, hready]

theorem acceptedNow_of_not_valid {s : State} {p : Pins} {rest : List Pins} (hins : s.inputs = p :: rest)
    (hvalid : p.cmdValid = false) : acceptedNow s = [] := by
  simp [acceptedNow, hins, hvalid]

theorem noResetNow_nil {s : State} (hins : s.inputs = []) : NoResetNow s := by simp [NoResetNow, hins]

theorem noResetNow_cons {s : State} {p : Pins} {rest : List Pins} (hins : s.inputs = p :: rest) :
    NoResetNow s ↔ p.rst = false := by
  simp [NoResetNow, hins]

/-- What a step can do, with the word it accepts: reset, *accept*, *take*, hold, or a micro-step. -/
theorem step_event {s t : State} (h : step s = .next t) :
    (¬NoResetNow s ∧ t = resetCore (afterSample s)) ∨
    (NoResetNow s ∧ s.cmdReady = true ∧ ∃ w, acceptedNow s = [w] ∧ accept w (afterSample s) = .next t) ∨
    (NoResetNow s ∧ acceptedNow s = [] ∧ s.rsp.valid = true ∧ t = take (afterSample s)) ∨
    (NoResetNow s ∧ acceptedNow s = [] ∧ s.seq.phase = .idle ∧ t = afterSample s) ∨
    (NoResetNow s ∧ acceptedNow s = [] ∧ s.seq.phase ≠ .idle ∧ internalStep (afterSample s) = .next t) := by
  match hins : s.inputs with
  | [] =>
    have hbusy : s.seq.phase ≠ .idle := by
      intro hidle
      rw [step_nil hins, internalStep_idle hidle] at h
      cases h
    rw [step_nil hins, ← afterSample_of_nil hins] at h
    exact .inr (.inr (.inr (.inr ⟨noResetNow_nil hins, acceptedNow_of_not_ready (cmdReady_of_busy hbusy), hbusy, h⟩)))
  | p :: rest =>
    cases hrst : p.rst with
    | true =>
      rw [step_reset hins hrst] at h
      cases h
      exact .inl ⟨by simp [noResetNow_cons hins, hrst], rfl⟩
    | false =>
      have hno : NoResetNow s := (noResetNow_cons hins).mpr hrst
      by_cases haccept : s.cmdReady = true ∧ p.cmdValid = true
      · obtain ⟨hready, hvalid⟩ := haccept
        rw [step_accept hins hrst hready hvalid] at h
        exact .inr (.inl ⟨hno, hready, _, acceptedNow_of_accept hins hrst hready hvalid, h⟩)
      have hnone : acceptedNow s = [] := by simpa [acceptedNow, hins, hrst] using haccept
      obtain ⟨q, hq, hr, -⟩ | ⟨q, -, -, -, hv, -, ht⟩ | ⟨q, hq, -, hc, hv, -⟩ | ⟨q, -, -, hidle, ht⟩ | ⟨hbusy, ht⟩ :=
        step_cases h
      · have := hno q hq
        simp [hr] at this
      · exact .inr (.inr (.inl ⟨hno, hnone, hv, ht⟩))
      · rw [hins] at hq
        cases hq
        exact absurd ⟨hc, hv⟩ haccept
      · exact .inr (.inr (.inr (.inl ⟨hno, hnone, hidle, ht⟩)))
      · exact .inr (.inr (.inr (.inr ⟨hno, hnone, hbusy, ht⟩)))

/-! ## The statements about the ports -/

/-- The sample taken off a list that is known. -/
theorem afterSample_of_cons {s : State} {p : Pins} {rest : List Pins} (hins : s.inputs = p :: rest) :
    afterSample s = { s with inputs := rest } := by
  rw [afterSample, hins]
  rfl

/-- Settles O29: the step is *accept*, which is the command's meaning or the ILLEGAL response. -/
theorem acceptedCommandIsRun : Obligations.AcceptedCommandIsRun := by
  unfold Obligations.AcceptedCommandIsRun
  intro s p rest hins hrst hready hvalid
  rw [step_accept hins hrst hready hvalid, afterSample_of_cons hins]
  exact ⟨fun i hi => accept_command hi _, fun hi => accept_illegal hi _⟩

theorem internalStep_of_micro {s : State} {i : Instr} (h : decodeSeq s.seq.word = .micro i) : internalStep s = exec i s := by
  rw [internalStep, h]

/-- A micro-operation is decoded outside IDLE only (R82). -/
theorem busy_of_micro {q : Seq} {i : Instr} (h : decodeSeq q.word = .micro i) : q.phase ≠ .idle := by
  obtain ⟨c, p, t⟩ := q
  rintro rfl
  rw [decodeSeq_idle] at h
  cases h

/-- Settles O30: the core is busy, so the step is the micro-step, which runs what SEQ decodes to. -/
theorem busyStepRunsTheMicroOp : Obligations.BusyStepRunsTheMicroOp := by
  unfold Obligations.BusyStepRunsTheMicroOp
  intro s i hhost hi
  rw [step_busy hhost (busy_of_micro hi)]
  exact internalStep_of_micro (s := afterSample s) hi

/-- Settles O32: reset comes first, and its state is R36's. -/
theorem resetLoadsEveryResetValue : Obligations.ResetLoadsEveryResetValue := by
  unfold Obligations.ResetLoadsEveryResetValue
  intro s p rest hins hrst
  rw [step_reset hins hrst, afterSample_of_cons hins]
  rfl

/-- Settles O34: outside R187's states nothing but reset comes before *take*. -/
theorem takeDeliversThePendingResponse : Obligations.TakeDeliversThePendingResponse := by
  unfold Obligations.TakeDeliversThePendingResponse
  intro s p rest hins hrst hready hvalid hseq
  have hnone : seqFault s.seq = none := by
    rw [Option.eq_none_iff_forall_ne_some]
    exact fun f hf => hseq ((unreachableSeq_iff s.seq).mpr ⟨f, hf⟩)
  rw [step_take hins hrst hnone hvalid hready, afterSample_of_cons hins]
  rfl

/-- The two command ports count only in a core that is ready (R29). -/
theorem pinStep_of_not_ready {s : State} (hready : s.cmdReady = false) (p : Pins) (v : Bool) (w : CmdWord) :
    pinStep { p with cmdValid := v, cmdData := w } s = pinStep p s := by
  simp [pinStep, eventStep, hready]

/-- Settles O35: a busy or pending core is not ready. -/
theorem offersWaitUntilReady : Obligations.OffersWaitUntilReady := by
  unfold Obligations.OffersWaitUntilReady
  intro s p rest v w hwait
  have hready : ({ s with inputs := rest } : State).cmdReady = false :=
    hwait.elim cmdReady_of_busy cmdReady_of_pending
  exact pinStep_of_not_ready hready p v w

/-- An idle core with a response pending holds its state through every sample without reset and *take*. -/
theorem runsTo_of_untaken {ps : List Pins} : ∀ {s : State}, s.inputs = ps → s.seq.phase = .idle → s.rsp.valid = true →
    (∀ p ∈ ps, p.rst = false ∧ p.rspReady = false) → RunsTo ps.length s { s with inputs := [] } := by
  induction ps with
  | nil =>
    intro s hins hidle hvalid _
    refine runsTo_zero.mpr ?_
    rw [← hins]
  | cons p ps ih =>
    intro s hins hidle hvalid hhost
    obtain ⟨hrst, hready⟩ := hhost p (by simp)
    have hstep : step s = .next (afterSample s) :=
      step_hold hins hrst hidle (fun _ => hready) (fun hc => by simp [cmdReady_of_pending hvalid] at hc)
    have hrest : (afterSample s).inputs = ps := by rw [afterSample_inputs, hins]; rfl
    exact runsTo_succ.mpr ⟨_, hstep, ih hrest hidle hvalid fun q hq => hhost q (by simp [hq])⟩

/-- Settles O36: each sample is used up without an event, and an idle core has no step of its own. -/
theorem untakenResponseLeavesTheCoreStuck : Obligations.UntakenResponseLeavesTheCoreStuck := by
  unfold Obligations.UntakenResponseLeavesTheCoreStuck
  intro s hidle hvalid hhost
  exact ⟨runsTo_of_untaken rfl hidle hvalid hhost, internalStep_idle hidle⟩

/-! ## Placing an instruction -/

theorem withFetchWord_command {i : Instr} (hi : i.isCommand = true) (s : State) :
    s.withFetchWord 16 (encode i).toNat = s.offering (encode i) := by
  have hword : BitVec.ofNat 16 ((encode i).toNat % 2 ^ 16) = encode i := by
    rw [Nat.mod_eq_of_lt (encode i).isLt, BitVec.ofNat_toNat, BitVec.setWidth_eq]
  rw [State.withFetchWord, decodeTableWord_toNat, decodeTable_encode, hword]
  exact if_pos hi

theorem withFetchWord_micro {i : Instr} (hi : i.isCommand = false) {q : Seq} (hq : encode i = 0#6 ++ q.word) (s : State) :
    s.withFetchWord 16 (encode i).toNat = s.sequencing q.word := by
  have hword : BitVec.ofNat 10 ((encode i).toNat % 2 ^ 16) = q.word := by
    apply BitVec.eq_of_toNat_eq
    have hlt := q.word.isLt
    rw [hq, append_toNat, BitVec.toNat_ofNat, BitVec.toNat_ofNat]
    omega
  rw [State.withFetchWord, decodeTableWord_toNat, decodeTable_encode, hword]
  exact if_neg (by simp [hi])

/-- Settles O31: a placed command is accepted in the next step, and a placed pattern is SEQ's own word in the next
micro-step. -/
theorem placedInstructionRunsNext : Obligations.PlacedInstructionRunsNext := by
  unfold Obligations.PlacedInstructionRunsNext
  intro i s
  cases hi : i.isCommand with
  | true =>
    rw [withFetchWord_command hi]
    have hstep := step_accept (s := s.offering (encode i)) rfl rfl rfl rfl
    rw [show (Pins.offer (encode i)).cmdData = encode i from rfl, accept_command (decodeCmd_encode hi)] at hstep
    exact ⟨_, hstep, rfl, rfl, rfl, rfl, rfl, rfl, rfl, nofun⟩
  | false =>
    obtain ⟨q, hq, hword, hdec⟩ := exists_seq_of_not_isCommand hi
    rw [withFetchWord_micro hi hword]
    have hseq : (s.sequencing q.word).seq = q := Seq.ofWord_word q
    have hquiet : NoResetOrTake (s.sequencing q.word) := by
      intro p hp
      cases hp
      exact ⟨rfl, fun _ => rfl⟩
    have hstep := step_busy hquiet (by rw [hseq]; exact hq)
    rw [internalStep_of_micro (i := i) (by rw [afterSample_seq, hseq]; exact hdec)] at hstep
    refine ⟨_, hstep, rfl, rfl, rfl, rfl, rfl, rfl, rfl, fun _ => ?_⟩
    rw [afterSample_seq, hseq, hword, append_toNat, BitVec.toNat_ofNat]
    omega

end Sys2Proof.Machine
end

section
/-! PROOFS. What the instructions answer (spec 20_memory.md R59; 30_encoding.md R78, R79, R82; 60_exceptions.md R206): which
of them complete, which status each command raises, and what repeating a command does. -/
namespace Sys2Proof.Machine
open Sys2Proof.Claims

/-! ## Completion -/

theorem exec_command_total {i : Instr} (hi : i.isCommand = true) (s : State) : ∃ t, exec i s = .next t := by
  rw [← accept_command (decodeCmd_encode hi)]
  exact accept_total _ s

/-- A mix step of the rounds 0 to 2 completes for every context that rules write (R82). -/
theorem mixStep_total {c : Ctx} (hc : c ≠ .unused3) {r : BitVec 2} (hr : r.toNat < 3) (i : BitVec 4) (s : State) :
    ∃ t, mixStep c (r ++ i) s = .next t :=
  let ⟨t, ht, _⟩ := mixStep_mixEffect hc hr i s
  ⟨t, ht⟩

theorem mixStep_unused3 (t : BitVec 6) (s : State) : mixStep .unused3 t s = .fault .unreachableCtx := if_pos rfl

/-- FFWD completes with the contexts that rules write (R182). -/
theorem exec_ffwd_total {c : Ctx} (hc : c ≠ .unused3) (t : BitVec 6) (s : State) : ∃ u, exec (.ffwd c t) s = .next u := by
  cases c with
  | upd => exact ⟨_, exec_ffwd_upd t s⟩
  | fin1 =>
    by_cases hfill : 56 ≤ s.fill.toNat
    · exact ⟨_, exec_ffwd_fin1_of_le hfill t⟩
    · exact ⟨_, exec_ffwd_fin1_of_lt (Nat.not_le.mp hfill) t⟩
  | fin2 => exact ⟨_, exec_ffwd_fin2 t s⟩
  | unused3 => exact absurd rfl hc

theorem exec_pad2_fault {c : Ctx} (hc : c ≠ .fin1) (t : BitVec 6) (s : State) : ∃ f, exec (.pad2 c t) s = .fault f := by
  cases c with
  | upd => exact ⟨_, rfl⟩
  | fin1 => exact absurd rfl hc
  | fin2 => exact ⟨_, rfl⟩
  | unused3 => exact ⟨_, rfl⟩

theorem exec_total_of_wellFormed {i : Instr} (hi : WellFormed i) (s : State) : ∃ t, exec i s = .next t := by
  cases i with
  | nop | init | update _ | updateE | finalize | rddig _ | rdhex _ | rdstat => exact exec_command_total rfl s
  | mixF c j => exact mixStep_total (by simpa [WellFormed, Instr.wellFormed] using hi) (r := 0) (by decide) j s
  | mixG c j => exact mixStep_total (by simpa [WellFormed, Instr.wellFormed] using hi) (r := 1) (by decide) j s
  | mixH c j => exact mixStep_total (by simpa [WellFormed, Instr.wellFormed] using hi) (r := 2) (by decide) j s
  | ffwd c t => exact exec_ffwd_total (by simpa [WellFormed, Instr.wellFormed] using hi) t s
  | pad2 c t =>
    obtain rfl : c = .fin1 := by simpa [WellFormed, Instr.wellFormed] using hi
    exact ⟨_, exec_pad2_fin1 t s⟩

theorem exec_fault_of_not_wellFormed {i : Instr} (hi : ¬WellFormed i) (s : State) : ∃ f, exec i s = .fault f := by
  cases i with
  | nop | init | update _ | updateE | finalize | rddig _ | rdhex _ | rdstat => exact absurd rfl hi
  | mixF c j =>
    obtain rfl : c = .unused3 := by simpa [WellFormed, Instr.wellFormed] using hi
    exact ⟨_, mixStep_unused3 (0#2 ++ j) s⟩
  | mixG c j =>
    obtain rfl : c = .unused3 := by simpa [WellFormed, Instr.wellFormed] using hi
    exact ⟨_, mixStep_unused3 (1#2 ++ j) s⟩
  | mixH c j =>
    obtain rfl : c = .unused3 := by simpa [WellFormed, Instr.wellFormed] using hi
    exact ⟨_, mixStep_unused3 (2#2 ++ j) s⟩
  | ffwd c t =>
    obtain rfl : c = .unused3 := by simpa [WellFormed, Instr.wellFormed] using hi
    exact ⟨_, exec_ffwd_unused3 t s⟩
  | pad2 c t => exact exec_pad2_fault (by simpa [WellFormed, Instr.wellFormed] using hi) t s

/-- Settles O27: R82's condition is the context that MIX, FFWD or PAD2 needs, and commands have none. -/
theorem exactlyTheWellFormedInstructionsComplete : Obligations.ExactlyTheWellFormedInstructionsComplete := by
  unfold Obligations.ExactlyTheWellFormedInstructionsComplete
  exact fun i s => ⟨fun hi => exec_total_of_wellFormed hi s, fun hi => exec_fault_of_not_wellFormed hi s⟩

/-! ## Repeating a command -/

/-- A byte absorbed moves FILL one on, modulo 64 (R24, R103). -/
theorem absorb_fill_toNat (d : Byte) (s : State) : (absorb d s).fill.toNat = (s.fill.toNat + 1) % 64 := by
  rw [fill_toNat, absorb_len_toNat, fill_toNat]
  omega

theorem fill_ne_63_of_lt {s : State} (h : s.fill.toNat < 63) : s.fill ≠ 63 := by
  intro hfill
  rw [hfill] at h
  exact absurd h (by decide)

/-- NOP and the reads answer with what RSP does not change, so they repeat (R59). -/
theorem read_repeats {i : Instr} (hi : i = .nop ∨ (∃ j, i = .rddig j) ∨ (∃ j, i = .rdhex j) ∨ i = .rdstat) (s : State) :
    ∃ r : Rsp, exec i s = .next { s with rsp := r } ∧ exec i { s with rsp := r } = .next { s with rsp := r } := by
  obtain rfl | ⟨j, rfl⟩ | ⟨j, rfl⟩ | rfl := hi
  · exact ⟨_, exec_nop s, exec_nop _⟩
  · obtain hfin | hfin := Bool.eq_false_or_eq_true s.fin
    · exact ⟨_, exec_rddig_of_fin hfin j, exec_rddig_of_fin hfin j⟩
    · exact ⟨_, exec_rddig_of_not_fin hfin j, exec_rddig_of_not_fin hfin j⟩
  · obtain hfin | hfin := Bool.eq_false_or_eq_true s.fin
    · exact ⟨_, exec_rdhex_of_fin hfin j, exec_rdhex_of_fin hfin j⟩
    · exact ⟨_, exec_rdhex_of_not_fin hfin j, exec_rdhex_of_not_fin hfin j⟩
  · exact ⟨_, exec_rdstat s, exec_rdstat _⟩

/-- Two UPDATEs inside a block store the byte twice, one place after the other. -/
theorem update_twice {d : Byte} {s t u : State} (hfin : s.fin = false) (hfill : s.fill.toNat < 62)
    (ht : exec (.update d) s = .next t) (hu : exec (.update d) t = .next u) :
    u.len = s.len + 16 ∧ Memory.read u.buf s.fill.toNat = d ∧ Memory.read u.buf (s.fill.toNat + 1) = d := by
  rw [exec_update_of_fill_ne hfin (fill_ne_63_of_lt (by omega))] at ht
  cases ht
  have hnext : (absorb d s).fill.toNat = s.fill.toNat + 1 := by
    rw [absorb_fill_toNat]
    omega
  have hne : (respond .ok 0x00 (absorb d s)).fill ≠ 63 := fill_ne_63_of_lt (by rw [respond_fill]; omega)
  rw [exec_update_of_fill_ne (by simpa using hfin) hne] at hu
  cases hu
  refine ⟨?_, ?_, ?_⟩
  · simp [BitVec.add_assoc]
  · simp [hnext, read_write]
  · simp [hnext, read_write]

/-- Settles O18: a command that writes only RSP repeats its answer; INIT loads the same values again; UPDATE appends. -/
theorem readsRepeatAndUpdatesDoNot : Obligations.ReadsRepeatAndUpdatesDoNot := by
  unfold Obligations.ReadsRepeatAndUpdatesDoNot
  refine ⟨fun i hi s => read_repeats hi s, fun s t hfin ht => ?_, fun s t ht => ?_, fun d s t u => update_twice⟩
  · rw [exec_finalize_of_fin hfin] at ht
    cases ht
    exact ⟨rfl, exec_finalize_of_fin (s := respond .ok 0x00 s) hfin⟩
  · rw [exec_init] at ht
    cases ht
    exact exec_init _

/-! ## Statuses -/

/-- The response word is the code above the data byte (R78). -/
theorem responseWord_toNat (r : Response) :
    (responseWord r).toNat = 256 * (statusCode r.status).toNat + r.data.toNat := by
  rw [responseWord, append_toNat]
  omega

/-- What R79 says of the response `r` that stands after a word with decoding `c` was accepted with FIN = `fin`. -/
def StatusHasItsCause (c : CmdDecoded) (fin : Bool) (r : Rsp) : Prop :=
  ((r.valid = true ∧ r.status = .errFinalized) ↔ fin = true ∧ (c = .command .updateE ∨ ∃ d, c = .command (.update d))) ∧
  ((r.valid = true ∧ r.status = .notReady) ↔
    fin = false ∧ ((∃ j, c = .command (.rddig j)) ∨ ∃ j, c = .command (.rdhex j))) ∧
  ((r.valid = true ∧ r.status = .illegal) ↔ c = .illegal) ∧
  (r.valid = true → r.status ≠ .ok → r.data = 0x00) ∧
  (r.valid = true → (∀ j, c ≠ .command (.rddig j)) → (∀ j, c ≠ .command (.rdhex j)) → c ≠ .command .rdstat → r.data = 0x00)

/-- A block that a command starts leaves no response yet. -/
theorem exec_update_status {s : State} (hrsp : s.rsp.valid = false) (d : Byte) :
    ∃ t, exec (.update d) s = .next t ∧ StatusHasItsCause (.command (.update d)) s.fin t.rsp := by
  cases hfin : s.fin with
  | true => exact ⟨_, exec_update_of_fin hfin d, by simp [StatusHasItsCause]⟩
  | false =>
    by_cases hfill : s.fill = 63
    · exact ⟨_, exec_update_of_fill_eq hfin hfill d, by simp [StatusHasItsCause, hrsp]⟩
    · exact ⟨_, exec_update_of_fill_ne hfin hfill d, by simp [StatusHasItsCause]⟩

theorem exec_finalize_status {s : State} (hrsp : s.rsp.valid = false) :
    ∃ t, exec .finalize s = .next t ∧ StatusHasItsCause (.command .finalize) s.fin t.rsp := by
  cases hfin : s.fin with
  | true => exact ⟨_, exec_finalize_of_fin hfin, by simp [StatusHasItsCause]⟩
  | false => exact ⟨_, exec_finalize_of_not_fin hfin, by simp [StatusHasItsCause, hrsp]⟩

theorem exec_updateE_status (s : State) :
    ∃ t, exec .updateE s = .next t ∧ StatusHasItsCause (.command .updateE) s.fin t.rsp := by
  refine ⟨_, exec_updateE s, ?_⟩
  cases s.fin with
  | true => simp [StatusHasItsCause]
  | false => simp [StatusHasItsCause]

theorem exec_rddig_status (j : BitVec 4) (s : State) :
    ∃ t, exec (.rddig j) s = .next t ∧ StatusHasItsCause (.command (.rddig j)) s.fin t.rsp := by
  cases hfin : s.fin with
  | true => exact ⟨_, exec_rddig_of_fin hfin j, by simp [StatusHasItsCause]⟩
  | false => exact ⟨_, exec_rddig_of_not_fin hfin j, by simp [StatusHasItsCause]⟩

theorem exec_rdhex_status (j : BitVec 5) (s : State) :
    ∃ t, exec (.rdhex j) s = .next t ∧ StatusHasItsCause (.command (.rdhex j)) s.fin t.rsp := by
  cases hfin : s.fin with
  | true => exact ⟨_, exec_rdhex_of_fin hfin j, by simp [StatusHasItsCause]⟩
  | false => exact ⟨_, exec_rdhex_of_not_fin hfin j, by simp [StatusHasItsCause]⟩

theorem exec_command_status {i : Instr} (hi : i.isCommand = true) {s : State} (hrsp : s.rsp.valid = false) :
    ∃ t, exec i s = .next t ∧ StatusHasItsCause (.command i) s.fin t.rsp := by
  cases i with
  | nop => exact ⟨_, exec_nop s, by simp [StatusHasItsCause]⟩
  | init => exact ⟨_, exec_init s, by simp [StatusHasItsCause]⟩
  | update d => exact exec_update_status hrsp d
  | updateE => exact exec_updateE_status s
  | finalize => exact exec_finalize_status hrsp
  | rddig j => exact exec_rddig_status j s
  | rdhex j => exact exec_rdhex_status j s
  | rdstat => exact ⟨_, exec_rdstat s, by simp [StatusHasItsCause]⟩
  | mixF | mixG | mixH | ffwd | pad2 => cases hi

theorem accept_status (w : CmdWord) {s : State} (hrsp : s.rsp.valid = false) :
    ∃ t, accept w s = .next t ∧ StatusHasItsCause (decodeCmd w) s.fin t.rsp := by
  cases hdec : decodeCmd w with
  | illegal => exact ⟨_, accept_illegal hdec s, by simp [StatusHasItsCause]⟩
  | command i =>
    rw [accept_command hdec]
    exact exec_command_status (isCommand_of_decodeCmd hdec) hrsp

/-- Settles O19: the codes, the response word, and command by command the status an accepted word is answered with. -/
theorem statusesAreRaisedByTheirCauses : Obligations.StatusesAreRaisedByTheirCauses := by
  unfold Obligations.StatusesAreRaisedByTheirCauses
  refine ⟨⟨rfl, rfl, rfl, rfl⟩, responseWord_toNat, fun s => ⟨rfl, rfl⟩, fun w s hready => ?_⟩
  obtain ⟨-, hrsp⟩ := (cmdReady_iff s).mp hready
  exact accept_status w hrsp

/-- Settles O20: what writes more than RSP answers OK, or starts a block and does not answer yet. -/
theorem errorResponsesChangeOnlyRsp : Obligations.ErrorResponsesChangeOnlyRsp := by
  unfold Obligations.ErrorResponsesChangeOnlyRsp
  intro w s t hready ht hvalid hstatus
  obtain ⟨-, hrsp⟩ := (cmdReady_iff s).mp hready
  obtain ⟨r, d, h⟩ | ⟨-, h⟩ | ⟨d, -, -, -, h⟩ | ⟨d, -, -, -, h⟩ | ⟨-, -, h⟩ := accept_cases w s <;>
    rw [h] at ht <;> cases ht
  · rfl
  · exact absurd rfl hstatus
  · exact absurd rfl hstatus
  · simp [hrsp] at hvalid
  · simp [hrsp] at hvalid

end Sys2Proof.Machine
end

section
/-! PROOFS. The invariant and what it forbids (spec 10_state.md sections 1 to 4 and R38; 42_round_mixer.md R182, R186, R187;
60_exceptions.md R214): it holds at reset, every event keeps it, and so no run faults. Then the registers' writers. -/
namespace Sys2Proof.Machine
open Sys2Proof.Claims Sys2Proof.Safety

/-! ## States of the invariant -/

/-- In an idle state the invariant is about BUF, LEN and SEQ alone. -/
theorem inv_of_idle {s : State} (hwf : Memory.wf s.buf) (hlen : s.len.extractLsb' 0 3 = 0) (hctx : s.seq.ctx ≠ .unused3)
    (ht : s.seq.t.toNat ≤ 47) (hidle : s.seq.phase = .idle) : Inv s where
  bufWf := hwf
  lenAligned := hlen
  seqReachable := ⟨hctx, ht, by simp [hidle], by simp [hidle]⟩
  pendingIdle := fun _ => hidle
  finIdle := fun _ => hidle
  block := ⟨fun h => absurd hidle h, by simp [hidle], fun h => absurd hidle h⟩

/-- A block may start with a reachable context and the FILL that its context asks for (R103, R146). -/
theorem inv_blockStart {c : Ctx} {s : State} (hwf : Memory.wf s.buf) (hlen : s.len.extractLsb' 0 3 = 0)
    (hrsp : s.rsp.valid = false) (hfin : s.fin = false) (hc : c ≠ .unused3) (hupd : c = .upd → s.fill = 0)
    (hfin2 : c = .fin2 → 56 ≤ s.fill.toNat) : Inv (blockStart c s) where
  bufWf := hwf
  lenAligned := hlen
  seqReachable := ⟨hc, by simp, by simp, by simp⟩
  pendingIdle := by simp [hrsp]
  finIdle := by simp [hfin]
  block := ⟨fun _ => hupd, by simp, fun _ => hfin2⟩

theorem rsp_of_busy {s : State} (h : Inv s) (hbusy : s.seq.phase ≠ .idle) : s.rsp.valid = false := by
  simpa using mt h.pendingIdle hbusy

theorem fin_of_busy {s : State} (h : Inv s) (hbusy : s.seq.phase ≠ .idle) : s.fin = false := by
  simpa using mt h.finIdle hbusy

/-- The invariant shuts out the states of R187. -/
theorem seqFault_of_inv {s : State} (h : Inv s) : seqFault s.seq = none := by
  obtain ⟨hctx, ht, -, hpad2⟩ := h.seqReachable
  exact seqFault_eq_none.mpr (.inr ⟨fun _ => by omega, hctx, hpad2⟩)

/-! ## The events keep it -/

theorem inv_resetCore (s : State) : Inv (resetCore s) := inv_of_idle wf_nil (by simp) nofun (by simp) rfl

/-- Settles O38: at reset BUF and LEN are empty and SEQ is idle. -/
theorem invariantHoldsAtReset : Obligations.InvariantHoldsAtReset := inv_resetCore State.reset

theorem inv_withInputs {s : State} (h : Inv s) (ps : List Pins) : Inv { s with inputs := ps } :=
  ⟨h.bufWf, h.lenAligned, h.seqReachable, h.pendingIdle, h.finIdle, h.block⟩

theorem inv_afterSample {s : State} (h : Inv s) : Inv (afterSample s) := inv_withInputs h s.inputs.tail

theorem inv_take {s : State} (h : Inv s) : Inv (take s) :=
  ⟨h.bufWf, h.lenAligned, h.seqReachable, nofun, h.finIdle, h.block⟩

theorem inv_respond {s : State} (h : Inv s) (hidle : s.seq.phase = .idle) (r : Status) (d : Byte) : Inv (respond r d s) :=
  ⟨h.bufWf, h.lenAligned, h.seqReachable, fun _ => hidle, h.finIdle, h.block⟩

/-- Counting LEN up by 8 keeps its low three bits (R25). -/
theorem absorb_lenAligned {s : State} (h : s.len.extractLsb' 0 3 = 0) (d : Byte) :
    (absorb d s).len.extractLsb' 0 3 = 0 := by
  have hlen : s.len.toNat % 8 = 0 := by simpa using congrArg BitVec.toNat h
  apply BitVec.eq_of_toNat_eq
  rw [BitVec.extractLsb'_toNat, absorb_len_toNat]
  simp
  omega

theorem absorb_wf {s : State} (h : Memory.wf s.buf) (d : Byte) : Memory.wf (absorb d s).buf := wf_write h s.fill.isLt d

theorem absorb_fill_of_eq_63 {s : State} (h : s.fill = 63) (d : Byte) : (absorb d s).fill = 0 := by
  apply BitVec.eq_of_toNat_eq
  rw [absorb_fill_toNat, h]
  rfl

/-- Accepting a word in a ready state keeps the invariant. -/
theorem inv_accept {s t : State} {w : CmdWord} (h : Inv s) (hready : s.cmdReady = true) (ht : accept w s = .next t) :
    Inv t := by
  obtain ⟨hidle, hrsp⟩ := (cmdReady_iff s).mp hready
  obtain ⟨hctx, ht47, -, -⟩ := h.seqReachable
  obtain ⟨r, d, he⟩ | ⟨-, he⟩ | ⟨d, -, hfin, -, he⟩ | ⟨d, -, hfin, hfill, he⟩ | ⟨-, hfin, he⟩ := accept_cases w s <;>
    rw [he] at ht <;> cases ht
  · exact inv_respond h hidle r d
  · exact inv_of_idle h.bufWf (by simp) hctx ht47 hidle
  · exact inv_of_idle (absorb_wf h.bufWf d) (absorb_lenAligned h.lenAligned d) hctx ht47 hidle
  · exact inv_blockStart (absorb_wf h.bufWf d) (absorb_lenAligned h.lenAligned d) hrsp hfin nofun
      (fun _ => absorb_fill_of_eq_63 hfill d) nofun
  · exact inv_blockStart (wf_pad1Buf h.bufWf s.fill.isLt s.len) h.lenAligned hrsp hfin nofun nofun nofun

theorem toNat_add_one_of_lt {t : BitVec 6} (ht : t.toNat < 47) : (t + 1).toNat = t.toNat + 1 :=
  BitVec.toNat_add_of_lt (y := 1#6) (by show t.toNat + 1 < 64; omega)

/-- The step counter stays at values that rules write (R180). -/
theorem seqOk_advanceStep {q : Seq} (h : seqOk q) (hmix : q.phase = .mix) : seqOk (advanceStep q.t q) := by
  obtain ⟨hctx, ht, -, -⟩ := h
  by_cases hlt : q.t.toNat < 47
  · have hnext := toNat_add_one_of_lt hlt
    rw [advanceStep_of_lt hlt]
    exact ⟨hctx, by simp only [hnext]; omega, by simp [hmix], by simp [hmix]⟩
  · rw [advanceStep_of_le (by omega)]
    exact ⟨hctx, ht, fun _ => by simp only; omega, by simp⟩

theorem advanceStep_phase {q : Seq} (hmix : q.phase = .mix) :
    (advanceStep q.t q).phase = .mix ∨ (advanceStep q.t q).phase = .ffwd := by
  unfold advanceStep
  split
  · exact .inl hmix
  · exact .inr rfl

theorem inv_mixWith {s : State} (h : Inv s) (hmix : s.seq.phase = .mix) (e : RomEntry) : Inv (mixWith e s.seq.t s) where
  bufWf := h.bufWf
  lenAligned := h.lenAligned
  seqReachable := seqOk_advanceStep h.seqReachable hmix
  pendingIdle := by simp [rsp_of_busy h (by simp [hmix])]
  finIdle := by simp [fin_of_busy h (by simp [hmix])]
  block := by
    have hbusy : s.seq.phase ≠ .idle := by simp [hmix]
    obtain ⟨hupd, -, hfin2⟩ := h.block
    refine ⟨fun _ hc => hupd hbusy (by simpa using hc), fun hp => ?_, fun _ hc => hfin2 hbusy (by simpa using hc)⟩
    obtain hm | hf := advanceStep_phase hmix
    · simp [hm] at hp
    · simp [hf] at hp

/-- The end of a command keeps the invariant, whatever ST and FIN become. -/
theorem inv_finishOk {s : State} (h : Inv s) (q : Quad) (f : Bool) : Inv (finishOk { s with st := q, fin := f }) :=
  let ⟨hctx, ht, _, _⟩ := h.seqReachable
  inv_of_idle h.bufWf h.lenAligned hctx ht rfl

/-- A micro-step keeps the invariant. -/
theorem inv_internalStep {s t : State} (h : Inv s) (ht : internalStep s = .next t) : Inv t := by
  obtain ⟨hctx, ht47, hlast, -⟩ := h.seqReachable
  obtain ⟨hupd, hpad2, hfin2⟩ := h.block
  obtain ⟨e, hmix, -, -, rfl⟩ | ⟨hffwd, hc, hfill, rfl⟩ | ⟨-, -, -, rfl⟩ | ⟨-, -, rfl⟩ | ⟨-, -, rfl⟩ | ⟨hpad, hc, rfl⟩ :=
    internalStep_cases ht
  · exact inv_mixWith h hmix e
  · have hbusy : s.seq.phase ≠ .idle := by simp [hffwd]
    exact
      { bufWf := h.bufWf
        lenAligned := h.lenAligned
        seqReachable := ⟨hctx, ht47, fun _ => hlast (.inl hffwd), fun _ => hc⟩
        pendingIdle := by simp [rsp_of_busy h hbusy]
        finIdle := by simp [fin_of_busy h hbusy]
        block := ⟨by simp [hc], fun _ => hfill, by simp [hc]⟩ }
  · exact inv_finishOk h _ true
  · exact inv_finishOk h _ true
  · exact inv_finishOk h _ s.fin
  · have hbusy : s.seq.phase ≠ .idle := by simp [hpad]
    have hrsp := rsp_of_busy h hbusy
    have hfin := fin_of_busy h hbusy
    exact inv_blockStart (wf_pad2Buf h.bufWf s.len) h.lenAligned hrsp hfin nofun nofun (fun _ => hpad2 hpad)

/-- Settles O39: event by event. -/
theorem everyStepKeepsTheInvariant : Obligations.EveryStepKeepsTheInvariant := by
  unfold Obligations.EveryStepKeepsTheInvariant
  intro s t h hstep
  obtain ⟨-, rfl⟩ | ⟨-, hready, w, -, ht⟩ | ⟨-, -, -, rfl⟩ | ⟨-, -, -, rfl⟩ | ⟨-, -, -, ht⟩ := step_event hstep
  · exact inv_resetCore _
  · exact inv_accept (inv_afterSample h) hready ht
  · exact inv_take (inv_afterSample h)
  · exact inv_afterSample h
  · exact inv_internalStep (inv_afterSample h) ht

/-! ## Runs -/

/-- What every step keeps holds at the end of every run. -/
theorem runsTo_induct {P : State → Prop} (hstep : ∀ s t, P s → step s = .next t → P t) {k : Nat} :
    ∀ {s t : State}, P s → RunsTo k s t → P t := by
  induction k with
  | zero =>
    intro s t h hrun
    exact runsTo_zero.mp hrun ▸ h
  | succ k ih =>
    intro s t h hrun
    obtain ⟨u, hu, hrun⟩ := runsTo_succ.mp hrun
    exact ih (hstep s u h hu) hrun

theorem step_ne_fault_of_inv {s : State} (h : Inv s) (f : Fault) : step s ≠ .fault f := by
  intro hf
  have hseq := (step_eq_fault_iff.mp hf).1
  rw [seqFault_of_inv h] at hseq
  cases hseq

/-- Settles O40: a step that faults starts in a state of R187, which the invariant shuts out along the run. -/
theorem invariantStatesNeverFault : Obligations.InvariantStatesNeverFault := by
  unfold Obligations.InvariantStatesNeverFault
  intro s h k f hrun
  induction k generalizing s with
  | zero => cases hrun
  | succ k ih =>
    rw [run] at hrun
    cases hstep : step s with
    | next t =>
      rw [hstep] at hrun
      exact ih t (everyStepKeepsTheInvariant s t h hstep) hrun
    | fault g => exact step_ne_fault_of_inv h g hstep
    | refused r =>
      rw [hstep] at hrun
      cases hrun

/-- A step without reset that has a next state starts outside R187's states. -/
theorem seqFault_of_step {s t : State} (hno : NoResetNow s) (hstep : step s = .next t) : seqFault s.seq = none := by
  rw [Option.eq_none_iff_forall_ne_some]
  intro f hf
  rw [step_eq_fault_iff.mpr ⟨hf, hno⟩] at hstep
  cases hstep

/-- A busy core of the invariant makes its micro-step under every sample without reset (R186). -/
theorem step_busy_of_inv {s : State} (h : Inv s) (hbusy : s.seq.phase ≠ .idle) (hno : NoResetNow s) :
    step s = internalStep (afterSample s) :=
  step_busy (fun p hp => ⟨hno p hp, by simp [rsp_of_busy h hbusy]⟩) hbusy

/-- Settles O37: under both samples the step is the same micro-step, which a core outside R187's states has. -/
theorem busyCoreDoesNotWaitForTheHost : Obligations.BusyCoreDoesNotWaitForTheHost := by
  unfold Obligations.BusyCoreDoesNotWaitForTheHost
  intro s p p' rest h hbusy hrst hrst'
  have hmicro : ∀ q : Pins, q.rst = false → step { s with inputs := q :: rest } = internalStep { s with inputs := rest } :=
    fun q hq => step_busy_of_inv (inv_withInputs h (q :: rest)) hbusy ((noResetNow_cons rfl).mpr hq)
  rw [hmicro p hrst, hmicro p' hrst']
  exact ⟨rfl, internalStep_total (seqFault_of_inv (inv_withInputs h rest)) hbusy⟩

/-! ## The words of the commands that write registers -/

theorem eq_of_decodeCmd_init {w : CmdWord} (h : decodeCmd w = .command .init) : w = 0x1000 :=
  (encode_eq_of_decodeCmd h).symm

theorem eq_of_decodeCmd_update {w : CmdWord} {d : Byte} (h : decodeCmd w = .command (.update d)) : w = 0x21#8 ++ d :=
  (encode_eq_of_decodeCmd h).symm

theorem eq_of_decodeCmd_finalize {w : CmdWord} (h : decodeCmd w = .command .finalize) : w = 0x3000 :=
  (encode_eq_of_decodeCmd h).symm

/-- What R20 to R23 let an accepted word `w` change. -/
theorem accept_writes {s t : State} {w : CmdWord} (ht : accept w s = .next t) :
    (t.st ≠ s.st → w = 0x1000) ∧ (t.sv ≠ s.sv → t.sv = s.st ∧ t.seq.phase = .mix ∧ t.seq.t = 0) ∧
      (t.buf ≠ s.buf → w = 0x3000 ∨ ∃ d : Byte, w = 0x21#8 ++ d) ∧
      (t.len ≠ s.len → w = 0x1000 ∨ ∃ d : Byte, w = 0x21#8 ++ d) ∧ t.delivered = s.delivered := by
  obtain ⟨r, d, he⟩ | ⟨hw, he⟩ | ⟨d, hw, -, -, he⟩ | ⟨d, hw, -, -, he⟩ | ⟨hw, -, he⟩ := accept_cases w s <;>
    rw [he] at ht <;> cases ht
  · simp
  · simp [eq_of_decodeCmd_init hw]
  · have := eq_of_decodeCmd_update hw
    exact ⟨by simp, by simp, fun _ => .inr ⟨d, this⟩, fun _ => .inr ⟨d, this⟩, rfl⟩
  · have := eq_of_decodeCmd_update hw
    exact ⟨by simp, by simp, fun _ => .inr ⟨d, this⟩, fun _ => .inr ⟨d, this⟩, rfl⟩
  · exact ⟨by simp, by simp, fun _ => .inl (eq_of_decodeCmd_finalize hw), by simp, rfl⟩

/-- What R20 to R23 let a micro-step change. -/
theorem internalStep_writes {s t : State} (ht : internalStep s = .next t) :
    (t.st ≠ s.st → s.seq.phase = .mix ∨ s.seq.phase = .ffwd) ∧
      (t.sv ≠ s.sv → t.sv = s.st ∧ t.seq.phase = .mix ∧ t.seq.t = 0) ∧ (t.buf ≠ s.buf → s.seq.phase = .pad2) ∧
      t.len = s.len ∧ t.delivered = s.delivered := by
  obtain ⟨e, hp, -, -, rfl⟩ | ⟨hp, -, -, rfl⟩ | ⟨hp, -, -, rfl⟩ | ⟨hp, -, rfl⟩ | ⟨hp, -, rfl⟩ | ⟨hp, -, rfl⟩ :=
    internalStep_cases ht
  · simp [hp]
  · simp [hp]
  · simp [hp]
  · simp [hp]
  · simp [hp]
  · simp [hp]

/-- Settles O42: an accepted word and a micro-step write what their rules say, *take* writes only RSP and the host's side. -/
theorem registersHaveOnlyTheirWriters : Obligations.RegistersHaveOnlyTheirWriters := by
  unfold Obligations.RegistersHaveOnlyTheirWriters
  intro s t hstep hno
  obtain ⟨hreset, -⟩ | ⟨-, -, w, hw, ht⟩ | ⟨-, -, hvalid, rfl⟩ | ⟨-, -, -, rfl⟩ | ⟨-, -, -, ht⟩ := step_event hstep
  · exact absurd hno hreset
  · obtain ⟨hst, hsv, hbuf, hlen, hdel⟩ := accept_writes ht
    rw [hw]
    refine ⟨fun h => ?_, hsv, fun h => ?_, fun h => ?_, fun h => absurd hdel h⟩
    · simp [hst h]
    · simpa using .inr (hbuf h)
    · simpa using hlen h
  · simp [hvalid]
  · simp
  · obtain ⟨hst, hsv, hbuf, hlen, hdel⟩ := internalStep_writes ht
    exact ⟨fun h => (hst h).elim .inl fun hf => .inr (.inl hf), hsv, fun h => .inl (hbuf h), fun h => absurd hlen h,
      fun h => absurd hdel h⟩

/-! ## FIN -/

/-- An accepted word never sets FIN, and only INIT clears it (R26). -/
theorem accept_fin {s t : State} {w : CmdWord} (ht : accept w s = .next t) :
    t.fin = s.fin ∨ (w = 0x1000 ∧ t.fin = false) := by
  obtain ⟨r, d, he⟩ | ⟨hw, he⟩ | ⟨d, -, -, -, he⟩ | ⟨d, -, -, -, he⟩ | ⟨-, -, he⟩ := accept_cases w s <;>
    rw [he] at ht <;> cases ht
  · exact .inl rfl
  · exact .inr ⟨eq_of_decodeCmd_init hw, rfl⟩
  · exact .inl rfl
  · exact .inl rfl
  · exact .inl rfl

/-- A micro-step keeps FIN or is the FFWD of the last padded block (R182). -/
theorem internalStep_fin {s t : State} (ht : internalStep s = .next t) :
    t.fin = s.fin ∨ (t.fin = true ∧ s.seq.phase = .ffwd ∧ t.seq.phase = .idle ∧ t.rsp = ⟨true, .ok, 0x00⟩ ∧
      (s.seq.ctx = .fin2 ∨ (s.seq.ctx = .fin1 ∧ s.fill.toNat < 56))) := by
  obtain ⟨e, -, -, -, rfl⟩ | ⟨-, -, -, rfl⟩ | ⟨hp, hc, hfill, rfl⟩ | ⟨hp, hc, rfl⟩ | ⟨-, -, rfl⟩ | ⟨-, -, rfl⟩ :=
    internalStep_cases ht
  · exact .inl rfl
  · exact .inl rfl
  · exact .inr ⟨rfl, hp, rfl, rfl, .inr ⟨hc, hfill⟩⟩
  · exact .inr ⟨rfl, hp, rfl, rfl, .inl hc⟩
  · exact .inl rfl
  · exact .inl rfl

theorem fin_neither_rises_nor_falls {s t : State} (h : t.fin = s.fin) (P Q : Prop) :
    (s.fin = false → t.fin = true → P) ∧ (s.fin = true → t.fin = false → Q) := by
  rw [h]
  cases s.fin with
  | true => simp
  | false => simp

/-- Settles O43: of the events, only the micro-step can set FIN, and only reset and an accepted INIT can clear it. -/
theorem finRisesOnlyWithTheLastBlock : Obligations.FinRisesOnlyWithTheLastBlock := by
  unfold Obligations.FinRisesOnlyWithTheLastBlock
  intro s t hstep
  obtain ⟨hreset, rfl⟩ | ⟨-, -, w, hw, ht⟩ | ⟨-, -, -, rfl⟩ | ⟨-, -, -, rfl⟩ | ⟨-, -, -, ht⟩ := step_event hstep
  · refine ⟨nofun, fun _ _ => .inl ?_⟩
    simpa [NoResetNow] using hreset
  · obtain hkeep | ⟨rfl, hclear⟩ := accept_fin ht
    · exact fin_neither_rises_nor_falls hkeep _ _
    · simp [hclear, hw]
  · exact fin_neither_rises_nor_falls rfl _ _
  · exact fin_neither_rises_nor_falls rfl _ _
  · obtain hkeep | ⟨hset, hrise⟩ := internalStep_fin ht
    · exact fin_neither_rises_nor_falls hkeep _ _
    · exact ⟨fun _ _ => hrise, fun _ hclear => by simp [hset] at hclear⟩

/-! ## The host's side -/

theorem accept_inputs {s t : State} {w : CmdWord} (ht : accept w s = .next t) : t.inputs = s.inputs := by
  obtain ⟨r, d, he⟩ | ⟨-, he⟩ | ⟨d, -, -, -, he⟩ | ⟨d, -, -, -, he⟩ | ⟨-, -, he⟩ := accept_cases w s
  all_goals
    rw [he] at ht
    cases ht
    rfl

theorem internalStep_inputs {s t : State} (ht : internalStep s = .next t) : t.inputs = s.inputs := by
  obtain ⟨e, -, -, -, rfl⟩ | ⟨-, -, -, rfl⟩ | ⟨-, -, -, rfl⟩ | ⟨-, -, rfl⟩ | ⟨-, -, rfl⟩ | ⟨-, -, rfl⟩ :=
    internalStep_cases ht
  all_goals rfl

/-- Every step uses one sample up. -/
theorem step_inputs {s t : State} (h : step s = .next t) : t.inputs = s.inputs.tail := by
  obtain ⟨-, rfl⟩ | ⟨-, -, w, -, ht⟩ | ⟨-, -, -, rfl⟩ | ⟨-, -, -, rfl⟩ | ⟨-, -, -, ht⟩ := step_event h
  · rfl
  · exact accept_inputs ht
  · rfl
  · rfl
  · exact internalStep_inputs ht

/-- What holds of every sample still to come goes on holding. -/
theorem forall_inputs_of_step {P : Pins → Prop} {s t : State} (h : ∀ p ∈ s.inputs, P p) (hstep : step s = .next t) :
    ∀ p ∈ t.inputs, P p := by
  rw [step_inputs hstep]
  exact fun p hp => h p (List.mem_of_mem_tail hp)

theorem noResetNow_of_noReset {s : State} (h : NoReset s.inputs) : NoResetNow s :=
  fun p hp => h p (List.mem_of_mem_head? hp)

/-- An accepted word was offered. -/
theorem offered_of_acceptedNow {s : State} {w : CmdWord} (h : acceptedNow s = [w]) :
    ∃ p ∈ s.inputs, p.cmdValid = true ∧ p.cmdData = w := by
  unfold acceptedNow at h
  split at h
  · cases h
  next p rest hins =>
    split at h
    next hc =>
      injection h with h
      exact ⟨p, by simp [hins], hc.2.2, h⟩
    next => cases h

/-! ## The finalized digest -/

/-- The states that hold the finalized digest `q` with its BUF and LEN, and whose host neither resets nor offers INIT. -/
def Frozen (q : Quad) (m : Memory) (l : BitVec 64) (s : State) : Prop :=
  Inv s ∧ (s.st = q ∧ s.buf = m ∧ s.len = l ∧ s.fin = true) ∧
    ∀ p ∈ s.inputs, p.rst = false ∧ (p.cmdValid = true → p.cmdData ≠ 0x1000)

/-- While FIN = 1 an accepted word other than INIT changes only RSP (R38). -/
theorem accept_of_fin {s t : State} {w : CmdWord} (hfin : s.fin = true) (hw : w ≠ 0x1000) (ht : accept w s = .next t) :
    t = { s with rsp := t.rsp } := by
  obtain ⟨r, d, he⟩ | ⟨hi, he⟩ | ⟨d, -, hf, -, he⟩ | ⟨d, -, hf, -, he⟩ | ⟨-, hf, he⟩ := accept_cases w s
  · rw [he] at ht
    cases ht
    rfl
  · exact absurd (eq_of_decodeCmd_init hi) hw
  all_goals simp [hfin] at hf

theorem frozen_step (q : Quad) (m : Memory) (l : BitVec 64) (s t : State) (h : Frozen q m l s) (hstep : step s = .next t) :
    Frozen q m l t := by
  obtain ⟨hinv, hregs, hhost⟩ := h
  have ⟨_, _, _, hfin⟩ := hregs
  refine ⟨everyStepKeepsTheInvariant s t hinv hstep, ?_, forall_inputs_of_step hhost hstep⟩
  obtain ⟨hreset, -⟩ | ⟨-, -, w, hw, ht⟩ | ⟨-, -, -, rfl⟩ | ⟨-, -, -, rfl⟩ | ⟨-, -, hbusy, -⟩ := step_event hstep
  · exact absurd (noResetNow_of_noReset fun p hp => (hhost p hp).1) hreset
  · obtain ⟨p, hp, hvalid, hdata⟩ := offered_of_acceptedNow hw
    have hword : w ≠ 0x1000 := hdata ▸ (hhost p hp).2 hvalid
    have hkeep := accept_of_fin (s := afterSample s) hfin hword ht
    rw [hkeep]
    exact hregs
  · exact hregs
  · exact hregs
  · exact absurd (hinv.finIdle hfin) hbusy

/-- Settles O41: every step keeps the finalized digest, by induction on the run. -/
theorem finalizedDigestIsFrozen : Obligations.FinalizedDigestIsFrozen := by
  unfold Obligations.FinalizedDigestIsFrozen
  intro k s t hinv hfin hreset hinit hrun
  have hstart : Frozen s.st s.buf s.len s := ⟨hinv, ⟨rfl, rfl, rfl, hfin⟩, fun p hp => ⟨hreset p hp, hinit p hp⟩⟩
  obtain ⟨-, hregs, -⟩ := runsTo_induct (frozen_step s.st s.buf s.len) hstart hrun
  exact hregs

end Sys2Proof.Machine
end

section
/-! PROOFS. The mixing of a block (spec 42_round_mixer.md R174 to R184): the closed forms of the round table, ST in the
middle of a block, and the run of a block's 49 micro-steps. -/
namespace Sys2Proof.Machine
open Sys2Proof.Claims Sys2Proof.Safety

/-! ## The round table -/

theorem rotationAmount_bounds {r i : Nat} (hr : r < 3) (hi : i < 16) : 3 ≤ rotationAmount r i ∧ rotationAmount r i ≤ 19 := by
  have hamount : ∀ r < 3, ∀ i < 16, 3 ≤ rotationAmount r i ∧ rotationAmount r i ≤ 19 := by decide
  exact hamount r hr i hi

/-- Settles O25: step `t` is step `t mod 16` of round `t / 16`, whose entry is the closed forms. -/
theorem roundTableHasTheClosedForms : Obligations.RoundTableHasTheClosedForms := by
  unfold Obligations.RoundTableHasTheClosedForms
  refine ⟨fun t ht => ?_, fun t => rom_none⟩
  have hr : t / 16 < 3 := by omega
  have hi : t % 16 < 16 := by omega
  have hrom := rom_eq_closedFormEntry hr hi
  rw [Nat.div_add_mod] at hrom
  obtain ⟨hlow, hhigh⟩ := rotationAmount_bounds hr hi
  exact ⟨_, hrom, rfl, rfl, Nat.mod_eq_of_lt (roundConstant_lt _), hlow, hhigh, roundFn_apply _⟩

/-- An entry reads one of the 16 words of the block. -/
theorem rom_k_lt {t : Nat} {e : RomEntry} (h : rom t = some e) : e.k < 16 := by
  have hk : ∀ e ∈ roundTable, e.k < 16 := by decide
  exact hk e (List.mem_of_getElem? h)

theorem lt_of_rom {t : Nat} {e : RomEntry} (h : rom t = some e) : t < 48 := by
  by_contra hle
  rw [rom_none (Nat.not_lt.mp hle)] at h
  cases h

/-! ## ST in the middle of a block -/

/-- The scheduler reads the words of the 64 bytes of BUF (R140). -/
theorem messageWord_eq_blockWord (s : State) {k : Nat} (hk : k < 16) : messageWord s.buf k = blockWord (bufBytes s) k := by
  have hbyte : ∀ i, i < 64 → (bufBytes s).getD i 0 = Memory.read s.buf i := by
    intro i hi
    rw [bufBytes, getD_readBytes _ _ _ _ hi, Nat.zero_add]
  rw [messageWord, blockWord, hbyte _ (by omega), hbyte _ (by omega), hbyte _ (by omega), hbyte _ (by omega)]

/-- One more entry of the table is one more mix step. -/
theorem mixSteps_take_succ {t : Nat} {e : RomEntry} (h : rom t = some e) (blk : List Byte) (q : Quad) :
    mixSteps blk (roundTable.take (t + 1)) q = mixQuad e (blockWord blk e.k) (mixSteps blk (roundTable.take t) q) := by
  rw [rom] at h
  simp [mixSteps, List.take_add_one, h]

theorem mixProgress_of_idle {s : State} (h : s.seq.phase = .idle) : MixProgress s := by simp [MixProgress, h]

theorem mixProgress_of_pad2 {s : State} (h : s.seq.phase = .pad2) : MixProgress s := by simp [MixProgress, h]

/-- A block starts with SV equal to ST and no step done (R183). -/
theorem mixProgress_blockStart (c : Ctx) (s : State) : MixProgress (blockStart c s) := by
  simp [MixProgress, mixSteps]

theorem mixWith_seq_of_lt {s : State} (ht : s.seq.t.toNat < 47) (hmix : s.seq.phase = .mix) (e : RomEntry) :
    (mixWith e s.seq.t s).seq = ⟨s.seq.ctx, .mix, s.seq.t + 1⟩ := by
  rw [mixWith_seq, advanceStep_of_lt ht, hmix]

theorem mixWith_seq_of_le {s : State} (ht : 47 ≤ s.seq.t.toNat) (e : RomEntry) :
    (mixWith e s.seq.t s).seq = ⟨s.seq.ctx, .ffwd, s.seq.t⟩ := by
  rw [mixWith_seq, advanceStep_of_le ht]

/-- A mix step is the next entry's step on the words of BUF. -/
theorem mixProgress_mixWith {s : State} {e : RomEntry} (h : MixProgress s) (hmix : s.seq.phase = .mix)
    (he : rom s.seq.t.toNat = some e) : MixProgress (mixWith e s.seq.t s) := by
  have hst : (mixWith e s.seq.t s).st = mixSteps (bufBytes s) (roundTable.take (s.seq.t.toNat + 1)) s.sv := by
    rw [mixSteps_take_succ he, ← h.1 hmix, mixWith_st, messageWord_eq_blockWord s (rom_k_lt he)]
  have hlt := lt_of_rom he
  by_cases hlast : s.seq.t.toNat < 47
  · have hseq := mixWith_seq_of_lt hlast hmix e
    refine ⟨fun _ => ?_, fun hffwd => by rw [hseq] at hffwd; cases hffwd⟩
    rw [hst, hseq, toNat_add_one_of_lt hlast]
    rfl
  · have hseq := mixWith_seq_of_le (Nat.not_lt.mp hlast) e
    refine ⟨fun hmixing => (by rw [hseq] at hmixing; cases hmixing), fun _ => ?_⟩
    have hall : roundTable.take (s.seq.t.toNat + 1) = roundTable :=
      List.take_of_length_le (show roundTable.length ≤ _ by show 48 ≤ _; omega)
    rw [hst, hall]
    rfl

theorem mixProgress_accept {s t : State} {w : CmdWord} (hidle : s.seq.phase = .idle) (ht : accept w s = .next t) :
    MixProgress t := by
  obtain ⟨r, d, he⟩ | ⟨-, he⟩ | ⟨d, -, -, -, he⟩ | ⟨d, -, -, -, he⟩ | ⟨-, -, he⟩ := accept_cases w s <;>
    rw [he] at ht <;> cases ht
  · exact mixProgress_of_idle hidle
  · exact mixProgress_of_idle hidle
  · exact mixProgress_of_idle hidle
  · exact mixProgress_blockStart _ _
  · exact mixProgress_blockStart _ _

theorem mixProgress_internalStep {s t : State} (h : MixProgress s) (ht : internalStep s = .next t) : MixProgress t := by
  obtain ⟨e, hmix, -, he, rfl⟩ | ⟨-, -, -, rfl⟩ | ⟨-, -, -, rfl⟩ | ⟨-, -, rfl⟩ | ⟨-, -, rfl⟩ | ⟨-, -, rfl⟩ :=
    internalStep_cases ht
  · exact mixProgress_mixWith h hmix he
  · exact mixProgress_of_pad2 rfl
  · exact mixProgress_of_idle rfl
  · exact mixProgress_of_idle rfl
  · exact mixProgress_of_idle rfl
  · exact mixProgress_blockStart _ _

/-- Settles O49: event by event; *take* and the host's side touch nothing that the progress speaks of. -/
theorem everyStepKeepsTheMixProgress : Obligations.EveryStepKeepsTheMixProgress := by
  unfold Obligations.EveryStepKeepsTheMixProgress
  intro s t h hstep
  obtain ⟨-, rfl⟩ | ⟨-, hready, w, -, ht⟩ | ⟨-, -, -, rfl⟩ | ⟨-, -, -, rfl⟩ | ⟨-, -, -, ht⟩ := step_event hstep
  · exact mixProgress_of_idle rfl
  · obtain ⟨hidle, -⟩ := (cmdReady_iff s).mp hready
    exact mixProgress_accept (s := afterSample s) hidle ht
  · exact h
  · exact h
  · exact mixProgress_internalStep (s := afterSample s) h ht

/-! ## The run of a block -/

/-- From step `t` of phase MIX, the `48 - t` steps to phase FFWD change only ST and SEQ. -/
theorem runsTo_mix {n : Nat} : ∀ {s : State}, s.inputs = [] → s.seq.phase = .mix → s.seq.ctx ≠ .unused3 →
    s.seq.t.toNat + n = 47 → ∃ q, RunsTo (n + 1) s { s with st := q, seq := ⟨s.seq.ctx, .ffwd, 47⟩ } := by
  induction n with
  | zero =>
    intro s hins hmix hctx ht
    obtain ⟨e, he⟩ := rom_isSome (t := s.seq.t.toNat) (by omega)
    have hstep : step s = .next (mixWith e s.seq.t s) := by
      rw [step_nil hins, internalStep_mix hmix (by omega), mixStep_next hctx he]
    have hlast : s.seq.t = 47 := BitVec.eq_of_toNat_eq ht
    have hseq : advanceStep s.seq.t s.seq = ⟨s.seq.ctx, .ffwd, 47⟩ := by
      rw [advanceStep_of_le (by omega), hlast]
    exact ⟨_, runsTo_succ.mpr ⟨_, hstep, runsTo_zero.mpr (by rw [mixWith, hseq])⟩⟩
  | succ n ih =>
    intro s hins hmix hctx ht
    obtain ⟨e, he⟩ := rom_isSome (t := s.seq.t.toNat) (by omega)
    have hstep : step s = .next (mixWith e s.seq.t s) := by
      rw [step_nil hins, internalStep_mix hmix (by omega), mixStep_next hctx he]
    have hseq := mixWith_seq_of_lt (by omega) hmix e
    have hnext : (s.seq.t + 1).toNat = s.seq.t.toNat + 1 := toNat_add_one_of_lt (by omega)
    obtain ⟨q, hq⟩ := ih (s := mixWith e s.seq.t s) hins (by rw [hseq]) (by rw [hseq]; exact hctx)
      (by rw [hseq, hnext]; omega)
    rw [hseq] at hq
    exact ⟨q, runsTo_succ.mpr ⟨_, hstep, hq⟩⟩

/-- Settles O28: the 48 steps reach phase FFWD with the frame of `runsTo_mix`, where the mix progress says what ST is. -/
theorem blockRunComputesCompress : Obligations.BlockRunComputesCompress := by
  unfold Obligations.BlockRunComputesCompress
  intro ctx s hctx
  obtain ⟨q, hrun⟩ := runsTo_mix (n := 47) (s := blockStart ctx { s with inputs := [] }) rfl rfl hctx rfl
  obtain ⟨-, hst⟩ := runsTo_induct everyStepKeepsTheMixProgress (mixProgress_blockStart ctx _) hrun
  have hq : q = mixSteps (Memory.readBytes s.buf 0 64) roundTable s.st := hst rfl
  refine ⟨_, hrun, rfl, rfl, ?_⟩
  rw [step_nil rfl, internalStep_ffwd rfl, hq]
  rfl

end Sys2Proof.Machine
end

section
/-! PROOFS. The reference functions (spec 41_padding_scheduler.md R142 to R149; 42_round_mixer.md R184): the length of the
padded message, `chain` block by block, and the bytes that absorbing and padding leave in BUF as parts of the message. -/
namespace Sys2Proof.Machine
open Sys2Proof.Claims

/-! ## The padded message -/

theorem pad_length (m : List Byte) : (pad m).length = 64 * blockCount m.length := by
  simp only [pad, List.length_append, List.length_cons, List.length_nil, List.length_replicate, length_le64Bytes, padZeros,
    blockCount]
  omega

/-- Settles O48: the count of zeros rounds `L + 9` up to whole blocks. -/
theorem paddedLengthIsWholeBlocks : Obligations.PaddedLengthIsWholeBlocks := by
  unfold Obligations.PaddedLengthIsWholeBlocks
  intro m
  rw [pad_length, blockCount]
  omega

/-- The blocks that the message fills are its own bytes. -/
theorem take_pad {m : List Byte} {k : Nat} (hk : k ≤ m.length) : (pad m).take k = m.take k := by
  rw [pad, List.append_assoc, List.append_assoc, List.take_append_of_le_length hk]

/-! The bytes of the padded message, part by part (R142). -/

theorem getD_pad_of_lt {m : List Byte} {i : Nat} (hi : i < m.length) : (pad m).getD i 0 = m.getD i 0 := by
  rw [pad, List.append_assoc, List.append_assoc, List.getD_append _ _ _ _ hi]

theorem getD_pad_length (m : List Byte) : (pad m).getD m.length 0 = 0x80 := by
  rw [pad, List.append_assoc, List.append_assoc, List.getD_append_right _ _ _ _ le_rfl, Nat.sub_self]
  rfl

theorem getD_pad_zero {m : List Byte} {i : Nat} (hlt : m.length < i) (hi : i < m.length + 1 + padZeros m.length) :
    (pad m).getD i 0 = 0 := by
  rw [pad, List.getD_append _ _ _ _ (by simp; omega), List.getD_append_right _ _ _ _ (by simp; omega),
    List.getD_replicate _ (by simp; omega)]

theorem getD_pad_le64 {m : List Byte} {i : Nat} (hi : m.length + 1 + padZeros m.length ≤ i) :
    (pad m).getD i 0 = (le64Bytes (bitLength m)).getD (i - (m.length + 1 + padZeros m.length)) 0 := by
  have hlen : (m ++ [0x80] ++ List.replicate (padZeros m.length) 0x00).length = m.length + 1 + padZeros m.length := by
    rw [List.length_append, List.length_append, List.length_singleton, List.length_replicate]
  rw [pad, List.getD_append_right _ _ _ _ (by rw [hlen]; exact hi), hlen]

/-- The zeros end, and the length field begins, 8 bytes before the end of a block (R142). -/
theorem padZeros_spec (l : Nat) : (l + 1 + padZeros l) % 64 = 56 ∧ padZeros l < 64 :=
  ⟨(reaches_56_iff l (padZeros l)).mpr (Nat.mod_eq_of_lt (padZeros_lt l)), padZeros_lt l⟩

/-! ## `chain`, block by block -/

theorem chainBlocks_append_block {blk : List Byte} (hblk : blk.length = 64) (n : Nat) : ∀ {h : Quad} {b : List Byte},
    b.length = 64 * n → chainBlocks (n + 1) h (b ++ blk) = compress (chainBlocks n h b) blk := by
  induction n with
  | zero =>
    intro h b hb
    obtain rfl := List.eq_nil_of_length_eq_zero hb
    show compress h (blk.take 64) = _
    rw [List.take_of_length_le hblk.le]
    rfl
  | succ n ih =>
    intro h b hb
    rw [chainBlocks, List.take_append_of_le_length (by omega), List.drop_append_of_le_length (by omega),
      ih (by rw [List.length_drop]; omega)]
    rfl

/-- One more block is one more compression (R149). -/
theorem chain_append_block {b blk : List Byte} (hb : b.length % 64 = 0) (hblk : blk.length = 64) (h : Quad) :
    chain h (b ++ blk) = compress (chain h b) blk := by
  have hblocks : (b ++ blk).length / 64 = b.length / 64 + 1 := by
    rw [List.length_append]
    omega
  rw [chain, hblocks, chainBlocks_append_block hblk _ (by omega)]
  rfl

/-- The same with the block cut out of a byte sequence at `64 n`. -/
theorem chain_take_succ {b : List Byte} {n : Nat} (hn : 64 * (n + 1) ≤ b.length) (h : Quad) :
    chain h (b.take (64 * (n + 1))) = compress (chain h (b.take (64 * n))) ((b.drop (64 * n)).take 64) := by
  rw [Nat.mul_succ, List.take_add]
  exact chain_append_block (by rw [List.length_take]; omega) (by rw [List.length_take, List.length_drop]; omega) h

/-! ## The bytes of BUF as a list -/

theorem readBytes_eq_of_getD {m : Memory} {a n : Nat} {l : List Byte} (hl : l.length = n)
    (h : ∀ i, i < n → Memory.read m (a + i) = l.getD i 0) : Memory.readBytes m a n = l := by
  refine List.ext_getElem ((length_readBytes m a n).trans hl.symm) fun i hi hi' => ?_
  rw [← List.getD_eq_getElem _ 0 hi, ← List.getD_eq_getElem _ 0 hi', getD_readBytes _ _ _ _ (by omega), h i (by omega)]

theorem getD_drop (l : List Byte) (k i : Nat) : (l.drop k).getD i 0 = l.getD (k + i) 0 := by
  simp [List.getD_eq_getElem?_getD]

theorem getD_take {k i : Nat} (hi : i < k) (l : List Byte) : (l.take k).getD i 0 = l.getD i 0 := by
  simp [List.getD_eq_getElem?_getD, hi]

@[simp] theorem length_bufBytes (s : State) : (bufBytes s).length = 64 := length_readBytes s.buf 0 64

/-- The byte at FILL follows the bytes below it (R103). -/
theorem readBytes_write_end (m : Memory) (n : Nat) (d : Byte) :
    Memory.readBytes (Memory.write m n d) 0 (n + 1) = Memory.readBytes m 0 n ++ [d] := by
  refine readBytes_eq_of_getD (by simp [length_readBytes]) fun i hi => ?_
  rw [Nat.zero_add, read_write]
  by_cases hlast : i = n
  · rw [if_pos hlast, List.getD_append_right _ _ _ _ (by rw [length_readBytes]; omega), hlast, length_readBytes,
      Nat.sub_self]
    rfl
  · rw [if_neg hlast, List.getD_append _ _ _ _ (by rw [length_readBytes]; omega), getD_readBytes _ _ _ _ (by omega),
      Nat.zero_add]

/-- Where BUF holds the bytes after the message's whole blocks, it holds them by their place in the message. -/
theorem read_of_readBytes_eq_drop {buf : Memory} {m : List Byte} {n k : Nat} (h : Memory.readBytes buf 0 n = m.drop k)
    {i : Nat} (hi : i < n) : Memory.read buf i = m.getD (k + i) 0 := by
  rw [← getD_drop, ← h, getD_readBytes _ _ _ _ hi, Nat.zero_add]

/-- PAD1 makes BUF the first 64 bytes of what the padded message has after the message's whole blocks (R145, R146). -/
theorem readBytes_pad1Buf {buf : Memory} {m : List Byte}
    (hbuf : Memory.readBytes buf 0 (m.length % 64) = m.drop (64 * (m.length / 64))) :
    Memory.readBytes (pad1Buf buf (m.length % 64) (bitLength m)) 0 64 =
      ((pad m).drop (64 * (m.length / 64))).take 64 := by
  have hlen := pad_length m
  have ⟨hzeros, hlt⟩ := padZeros_spec m.length
  rw [blockCount] at hlen
  refine readBytes_eq_of_getD (by rw [List.length_take, List.length_drop]; omega) fun i hi => ?_
  rw [Nat.zero_add, read_pad1Buf _ _ _ _ (by omega) hi, getD_take hi, getD_drop]
  by_cases hlength : m.length % 64 ≤ 55 ∧ 56 ≤ i
  · rw [if_pos hlength, getD_pad_le64 (by omega)]
    congr 1
    omega
  rw [if_neg hlength]
  by_cases hmsg : i < m.length % 64
  · rw [if_pos hmsg, getD_pad_of_lt (by omega), read_of_readBytes_eq_drop hbuf hmsg]
  rw [if_neg hmsg]
  by_cases hmark : i = m.length % 64
  · rw [if_pos hmark, hmark, Nat.div_add_mod, getD_pad_length]
  · rw [if_neg hmark, getD_pad_zero (by omega) (by omega)]

/-- PAD2 makes BUF the last 64 bytes of a padded message that needs a second padded block (R146, R147). -/
theorem readBytes_pad2Buf {m : List Byte} (hfill : 56 ≤ m.length % 64) (buf : Memory) :
    Memory.readBytes (pad2Buf buf (bitLength m)) 0 64 = (pad m).drop (64 * (m.length / 64 + 1)) := by
  have hlen := pad_length m
  have ⟨hzeros, hlt⟩ := padZeros_spec m.length
  rw [blockCount] at hlen
  refine readBytes_eq_of_getD (by rw [List.length_drop]; omega) fun i hi => ?_
  rw [Nat.zero_add, read_pad2Buf _ _ _ hi, getD_drop]
  by_cases hlength : 56 ≤ i
  · rw [if_pos hlength, getD_pad_le64 (by omega)]
    congr 1
    omega
  · rw [if_neg hlength, getD_pad_zero (by omega) (by omega)]

/-! ## The digest as bytes -/

/-- Digest byte `j` is byte `j` of the four words' bytes (R54, R149). -/
theorem digestByte_eq_getD (q : Quad) (j : BitVec 4) : digestByte q j = (quadBytes q).getD j.toNat 0 := by
  have hbytes : ∀ n, n < 16 → digestByte q (BitVec.ofNat 4 n) = (quadBytes q).getD n 0 := by
    intro n hn
    interval_cases n <;> rfl
  simpa using hbytes j.toNat j.isLt

/-- Hex character `j` of the digest is character `j` of its bytes' characters (R107, R149). -/
theorem digestHexChar_eq_getD (q : Quad) (j : BitVec 5) : digestHexChar q j = (bytesHex (quadBytes q)).getD j.toNat 0 := by
  have hchars : ∀ n, n < 32 → digestHexChar q (BitVec.ofNat 5 n) = (bytesHex (quadBytes q)).getD n 0 := by
    intro n hn
    interval_cases n <;> rfl
  simpa using hchars j.toNat j.isLt

end Sys2Proof.Machine
end

section
/-! PROOFS. The simulation of the reference machine (spec 10_state.md R37; 40_commands.md R111; 41_padding_scheduler.md R150,
R151): it holds at reset, and each event of the core is the reference machine's step of the word it accepts, or none. -/
namespace Sys2Proof.Machine
open Sys2Proof.Claims Sys2Proof.Safety

/-! ## What an idle core holds (R37) -/

/-- FILL is the message's length modulo 64, also where LEN wraps (R24). -/
theorem fill_toNat_of_length {s : State} {m : List Byte} (h : s.len = BitVec.ofNat 64 (8 * m.length)) :
    s.fill.toNat = m.length % 64 := by
  rw [fill_toNat, h, BitVec.toNat_ofNat]
  omega

theorem holdsMessage_unfinished {r : RefState} {s : State} (hlen : s.len = BitVec.ofNat 64 (8 * r.msg.length))
    (hr : r.fin = false) (hfin : s.fin = false)
    (hbuf : Memory.readBytes s.buf 0 (r.msg.length % 64) = r.msg.drop (64 * (r.msg.length / 64)))
    (hst : s.st = chain iv (r.msg.take (64 * (r.msg.length / 64)))) : HoldsMessage r s := by
  have hfill := fill_toNat_of_length hlen
  exact ⟨hlen, hfill, hfin.trans hr.symm, fun _ => ⟨hfill ▸ hbuf, hst⟩, fun hf => by simp [hfin] at hf⟩

theorem holdsMessage_finalized {r : RefState} {s : State} (hlen : s.len = BitVec.ofNat 64 (8 * r.msg.length))
    (hr : r.fin = true) (hfin : s.fin = true) (hst : s.st = chain iv (pad r.msg))
    (hbuf : bufBytes s = (pad r.msg).drop ((pad r.msg).length - 64)) : HoldsMessage r s :=
  ⟨hlen, fill_toNat_of_length hlen, hfin.trans hr.symm, fun hf => by simp [hfin] at hf,
    fun _ => ⟨hst, by rw [hst]; rfl, hbuf⟩⟩

/-- FIN of an idle core is the reference machine's. -/
theorem fin_of_simulates {r : RefState} {rs : List Response} {s : State} (h : Simulates r rs s)
    (hidle : s.seq.phase = .idle) : s.fin = r.fin :=
  have ⟨⟨_, _, hfin, _⟩, _⟩ := h.idle hidle
  hfin

/-- The message bytes and the chaining value of an idle core with FIN = 0. -/
theorem open_of_simulates {r : RefState} {rs : List Response} {s : State} (h : Simulates r rs s)
    (hidle : s.seq.phase = .idle) (hfin : s.fin = false) :
    Memory.readBytes s.buf 0 (r.msg.length % 64) = r.msg.drop (64 * (r.msg.length / 64)) ∧
      s.st = chain iv (r.msg.take (64 * (r.msg.length / 64))) := by
  obtain ⟨⟨-, hfill, -, hopen, -⟩, -⟩ := h.idle hidle
  obtain ⟨hbuf, hst⟩ := hopen hfin
  exact ⟨hfill ▸ hbuf, hst⟩

/-- The digest in ST of an idle core with FIN = 1. -/
theorem digest_of_simulates {r : RefState} {rs : List Response} {s : State} (h : Simulates r rs s)
    (hidle : s.seq.phase = .idle) (hfin : s.fin = true) : quadBytes s.st = md4 r.msg := by
  obtain ⟨⟨-, -, -, -, hdone⟩, -⟩ := h.idle hidle
  obtain ⟨-, hmd4, -⟩ := hdone hfin
  exact hmd4

/-! ## Reset, *take* and the host's side -/

/-- After reset the core holds the empty message, and the responses are those delivered before. -/
theorem simulates_resetCore (s : State) : Simulates RefState.reset s.delivered (resetCore s) where
  inv := inv_resetCore s
  mixing := mixProgress_of_idle rfl
  length := rfl
  idle := fun _ => ⟨holdsMessage_unfinished rfl rfl rfl rfl rfl, List.append_nil _⟩
  busy := fun hbusy => absurd rfl hbusy

/-- Settles O50: the reset state with samples to come is the core just after a reset. -/
theorem resetSimulatesTheReference : Obligations.ResetSimulatesTheReference := by
  unfold Obligations.ResetSimulatesTheReference
  exact fun ins => simulates_resetCore (started ins)

theorem simulates_afterSample {r : RefState} {rs : List Response} {s : State} (h : Simulates r rs s) :
    Simulates r rs (afterSample s) :=
  ⟨inv_afterSample h.inv, h.mixing, h.length, h.idle, h.busy⟩

/-- *take* moves the pending response among those delivered. -/
theorem simulates_take {r : RefState} {rs : List Response} {s : State} (h : Simulates r rs s) (hvalid : s.rsp.valid = true) :
    Simulates r rs (take s) where
  inv := inv_take h.inv
  mixing := h.mixing
  length := h.length
  idle := by
    intro hidle
    obtain ⟨hmsg, hrs⟩ := h.idle hidle
    refine ⟨hmsg, ?_⟩
    rw [← hrs]
    simp [responsesSoFar, hvalid]
  busy := fun hbusy => absurd (h.inv.pendingIdle hvalid) hbusy

/-! ## Words that are answered at once -/

theorem responses_of_ready {r : RefState} {rs : List Response} {s : State} (h : Simulates r rs s)
    (hready : s.cmdReady = true) : s.delivered = rs := by
  obtain ⟨hidle, hrsp⟩ := (cmdReady_iff s).mp hready
  obtain ⟨-, hrs⟩ := h.idle hidle
  simpa [responsesSoFar, hrsp] using hrs

/-- An idle core that holds the message and has just answered. -/
theorem simulates_answered {r : RefState} {rs : List Response} {s : State} {a : Response} (hinv : Inv s)
    (hidle : s.seq.phase = .idle) (hmsg : HoldsMessage r s) (hrsp : s.rsp = ⟨true, a.status, a.data⟩)
    (hdelivered : s.delivered = rs) : Simulates r (rs ++ [a]) s where
  inv := hinv
  mixing := mixProgress_of_idle hidle
  length := hmsg.1
  idle := fun _ => ⟨hmsg, by simp [responsesSoFar, hrsp, hdelivered, Rsp.response]⟩
  busy := fun hbusy => absurd hidle hbusy

/-- An answer that changes only RSP. -/
theorem simulates_respond {r : RefState} {rs : List Response} {s : State} (h : Simulates r rs s) (hready : s.cmdReady = true)
    (a : Response) : Simulates r (rs ++ [a]) (respond a.status a.data s) := by
  obtain ⟨hidle, -⟩ := (cmdReady_iff s).mp hready
  obtain ⟨hmsg, -⟩ := h.idle hidle
  have hdelivered := responses_of_ready h hready
  exact simulates_answered (inv_respond h.inv hidle _ _) hidle hmsg rfl hdelivered

/-- STATUS is the reference machine's (R108, R150). -/
theorem statusByte_eq_refStatus {r : RefState} {rs : List Response} {s : State} (h : Simulates r rs s)
    (hidle : s.seq.phase = .idle) : s.statusByte = refStatus r := by
  apply BitVec.eq_of_toNat_eq
  rw [statusByte_toNat, fill_toNat_of_length h.length, fin_of_simulates h hidle, refStatus, BitVec.toNat_ofNat]
  cases r.fin with
  | true => simp; omega
  | false => simp; omega

/-! ## Words that start a block -/

/-- A block that starts has SV for its chaining value; the response is still to come. -/
theorem simulates_blockStart {m : List Byte} {rs : List Response} {c : Ctx} {s : State} (hinv : Inv (blockStart c s))
    (hlen : s.len = BitVec.ofNat 64 (8 * m.length)) (hdelivered : s.delivered = rs)
    (hblock : BlockInProgress m (blockStart c s)) :
    Simulates ⟨m, decide (c ≠ .upd)⟩ (rs ++ [⟨.ok, 0x00⟩]) (blockStart c s) where
  inv := hinv
  mixing := mixProgress_blockStart c s
  length := hlen
  idle := nofun
  busy := fun _ => ⟨hblock, rfl, by rw [blockStart_delivered, hdelivered]⟩

/-- UPDATE's block: 64 bytes of the message, after the whole blocks before them. -/
theorem blockInProgress_upd {m : List Byte} {s : State} (hst : s.st = chain iv (m.take (m.length - 64)))
    (hbuf : bufBytes s = m.drop (m.length - 64)) : BlockInProgress m (blockStart .upd s) :=
  ⟨fun _ => ⟨hst, hbuf⟩, nofun, nofun, nofun⟩

theorem blockInProgress_fin1 {m : List Byte} {s : State} (hst : s.st = chain iv (m.take (64 * (m.length / 64))))
    (hbuf : bufBytes s = ((pad m).drop (64 * (m.length / 64))).take 64) : BlockInProgress m (blockStart .fin1 s) :=
  ⟨nofun, fun _ _ => ⟨hst, hbuf⟩, nofun, nofun⟩

theorem blockInProgress_fin2 {m : List Byte} {s : State} (hst : s.st = chain iv ((pad m).take (64 * (m.length / 64 + 1))))
    (hbuf : bufBytes s = (pad m).drop (64 * (m.length / 64 + 1))) : BlockInProgress m (blockStart .fin2 s) :=
  ⟨nofun, nofun, nofun, fun _ => ⟨hst, hbuf⟩⟩

/-! ## The commands, one by one -/

theorem absorb_length {m : List Byte} {s : State} (h : s.len = BitVec.ofNat 64 (8 * m.length)) (d : Byte) :
    (absorb d s).len = BitVec.ofNat 64 (8 * (m ++ [d]).length) := by
  apply BitVec.eq_of_toNat_eq
  rw [absorb_len_toNat, h, List.length_append, List.length_singleton, BitVec.toNat_ofNat, BitVec.toNat_ofNat]
  omega

/-- The absorbed byte follows the message's bytes in BUF (R103). -/
theorem readBytes_absorb {m : List Byte} {s : State} (hlen : s.len = BitVec.ofNat 64 (8 * m.length))
    (hbuf : Memory.readBytes s.buf 0 (m.length % 64) = m.drop (64 * (m.length / 64))) (d : Byte) :
    Memory.readBytes (absorb d s).buf 0 (m.length % 64 + 1) = (m ++ [d]).drop (64 * (m.length / 64)) := by
  rw [absorb_buf, fill_toNat_of_length hlen, readBytes_write_end, hbuf, List.drop_append_of_le_length (by omega)]

/-- The 64th byte of a block: the block is the last 64 bytes of the message. -/
theorem simulates_absorb_block {m : List Byte} {rs : List Response} {s : State} {d : Byte} (h : Simulates ⟨m, false⟩ rs s)
    (hready : s.cmdReady = true) (hinv : Inv (blockStart .upd (absorb d s))) (h63 : s.fill = 63) :
    Simulates ⟨m ++ [d], false⟩ (rs ++ [⟨.ok, 0x00⟩]) (blockStart .upd (absorb d s)) := by
  obtain ⟨hidle, -⟩ := (cmdReady_iff s).mp hready
  obtain ⟨hbuf, hst⟩ := open_of_simulates h hidle (fin_of_simulates h hidle)
  have hmod : m.length % 64 = 63 := by rw [← fill_toNat_of_length h.length, h63]; rfl
  have hsucc : (m ++ [d]).length = m.length + 1 := List.length_append
  have hblock : (m ++ [d]).length - 64 = 64 * (m.length / 64) := by omega
  have hbuf' := readBytes_absorb h.length hbuf d
  have hdelivered := responses_of_ready h hready
  refine simulates_blockStart hinv (absorb_length h.length d) hdelivered (blockInProgress_upd ?_ ?_)
  · rw [hblock, List.take_append_of_le_length (by omega)]
    exact hst
  · rw [hmod] at hbuf'
    rw [hblock]
    exact hbuf'

/-- A byte inside a block: BUF holds one byte more, and no block is complete. -/
theorem simulates_absorb {m : List Byte} {rs : List Response} {s : State} {d : Byte} (h : Simulates ⟨m, false⟩ rs s)
    (hready : s.cmdReady = true) (hinv : Inv (respond .ok 0x00 (absorb d s))) (h63 : s.fill ≠ 63) :
    Simulates ⟨m ++ [d], false⟩ (rs ++ [⟨.ok, 0x00⟩]) (respond .ok 0x00 (absorb d s)) := by
  obtain ⟨hidle, -⟩ := (cmdReady_iff s).mp hready
  have hfin := fin_of_simulates h hidle
  obtain ⟨hbuf, hst⟩ := open_of_simulates h hidle hfin
  have hmod : m.length % 64 ≠ 63 := by
    rw [← fill_toNat_of_length h.length]
    exact fun hfill => h63 (BitVec.eq_of_toNat_eq hfill)
  have hsucc : (m ++ [d]).length = m.length + 1 := List.length_append
  have hdiv : (m ++ [d]).length / 64 = m.length / 64 := by omega
  have hrest : (m ++ [d]).length % 64 = m.length % 64 + 1 := by omega
  have hdelivered := responses_of_ready h hready
  have hmsg : HoldsMessage ⟨m ++ [d], false⟩ (respond .ok 0x00 (absorb d s)) := by
    refine holdsMessage_unfinished (absorb_length h.length d) rfl hfin ?_ ?_
    · rw [hdiv, hrest]
      exact readBytes_absorb h.length hbuf d
    · rw [hdiv, List.take_append_of_le_length (by omega)]
      exact hst
  exact simulates_answered hinv hidle hmsg rfl hdelivered

theorem simulates_update {r : RefState} {rs : List Response} {s t : State} {d : Byte} (h : Simulates r rs s)
    (hready : s.cmdReady = true) (hinv : Inv t) (ht : exec (.update d) s = .next t) :
    Simulates (refExec r (.update d)).1 (rs ++ [(refExec r (.update d)).2]) t := by
  obtain ⟨hidle, -⟩ := (cmdReady_iff s).mp hready
  have hsame := fin_of_simulates h hidle
  obtain ⟨m, f⟩ := r
  cases f with
  | true =>
    rw [exec_update_of_fin hsame] at ht
    cases ht
    exact simulates_respond h hready ⟨.errFinalized, 0x00⟩
  | false =>
    by_cases h63 : s.fill = 63
    · rw [exec_update_of_fill_eq hsame h63] at ht
      cases ht
      exact simulates_absorb_block h hready hinv h63
    · rw [exec_update_of_fill_ne hsame h63] at ht
      cases ht
      exact simulates_absorb h hready hinv h63

theorem simulates_finalize {r : RefState} {rs : List Response} {s t : State} (h : Simulates r rs s)
    (hready : s.cmdReady = true) (hinv : Inv t) (ht : exec .finalize s = .next t) :
    Simulates (refExec r .finalize).1 (rs ++ [(refExec r .finalize).2]) t := by
  obtain ⟨hidle, -⟩ := (cmdReady_iff s).mp hready
  have hsame := fin_of_simulates h hidle
  obtain ⟨m, f⟩ := r
  cases f with
  | true =>
    rw [exec_finalize_of_fin hsame] at ht
    cases ht
    exact simulates_respond h hready ⟨.ok, 0x00⟩
  | false =>
    rw [exec_finalize_of_not_fin hsame] at ht
    cases ht
    obtain ⟨hbuf, hst⟩ := open_of_simulates h hidle hsame
    have hdelivered := responses_of_ready h hready
    have hpad : bufBytes (pad1 s) = ((pad m).drop (64 * (m.length / 64))).take 64 := by
      rw [← readBytes_pad1Buf hbuf, bufBytes, pad1_buf, fill_toNat_of_length h.length, h.length]
      rfl
    exact simulates_blockStart hinv h.length hdelivered (blockInProgress_fin1 hst hpad)

theorem simulates_init {r : RefState} {rs : List Response} {s t : State} (h : Simulates r rs s)
    (hready : s.cmdReady = true) (hinv : Inv t) (ht : exec .init s = .next t) :
    Simulates (refExec r .init).1 (rs ++ [(refExec r .init).2]) t := by
  obtain ⟨hidle, -⟩ := (cmdReady_iff s).mp hready
  rw [exec_init] at ht
  cases ht
  have hdelivered := responses_of_ready h hready
  show Simulates RefState.reset (rs ++ [⟨.ok, 0x00⟩]) _
  exact simulates_answered hinv hidle (holdsMessage_unfinished rfl rfl rfl rfl rfl) rfl hdelivered

/-- A digest read: the two answers of both machines (R106, R107, R150). -/
theorem simulates_read {r : RefState} {rs : List Response} {s t : State} {i : Instr} {byte : Byte} (h : Simulates r rs s)
    (hready : s.cmdReady = true) (hdone : s.fin = true → exec i s = .next (respond .ok byte s))
    (hopen : s.fin = false → exec i s = .next (respond .notReady 0x00 s))
    (href : refExec r i = if r.fin then (r, ⟨.ok, byte⟩) else (r, ⟨.notReady, 0⟩)) (ht : exec i s = .next t) :
    Simulates (refExec r i).1 (rs ++ [(refExec r i).2]) t := by
  obtain ⟨hidle, -⟩ := (cmdReady_iff s).mp hready
  rw [href, ← fin_of_simulates h hidle]
  obtain hfin | hfin := Bool.eq_false_or_eq_true s.fin
  · rw [hdone hfin] at ht
    cases ht
    rw [if_pos hfin]
    exact simulates_respond h hready ⟨.ok, byte⟩
  · rw [hopen hfin] at ht
    cases ht
    rw [if_neg (by simp [hfin])]
    exact simulates_respond h hready ⟨.notReady, 0x00⟩

/-- RDDIG's byte is the reference machine's where FIN = 1. -/
theorem refExec_rddig {r : RefState} {rs : List Response} {s : State} (h : Simulates r rs s) (hidle : s.seq.phase = .idle)
    (j : BitVec 4) :
    refExec r (.rddig j) = if r.fin then (r, ⟨.ok, digestByte s.st j⟩) else (r, ⟨.notReady, 0⟩) := by
  refine ite_congr rfl (fun hfin => ?_) (fun _ => rfl)
  rw [digestByte_eq_getD, digest_of_simulates h hidle ((fin_of_simulates h hidle).trans hfin)]

/-- RDHEX's character is the reference machine's where FIN = 1. -/
theorem refExec_rdhex {r : RefState} {rs : List Response} {s : State} (h : Simulates r rs s) (hidle : s.seq.phase = .idle)
    (j : BitVec 5) :
    refExec r (.rdhex j) = if r.fin then (r, ⟨.ok, digestHexChar s.st j⟩) else (r, ⟨.notReady, 0⟩) := by
  refine ite_congr rfl (fun hfin => ?_) (fun _ => rfl)
  rw [digestHexChar_eq_getD, digest_of_simulates h hidle ((fin_of_simulates h hidle).trans hfin), md4Hex]

theorem simulates_exec {r : RefState} {rs : List Response} {s t : State} {i : Instr} (hi : i.isCommand = true)
    (h : Simulates r rs s) (hready : s.cmdReady = true) (hinv : Inv t) (ht : exec i s = .next t) :
    Simulates (refExec r i).1 (rs ++ [(refExec r i).2]) t := by
  obtain ⟨hidle, -⟩ := (cmdReady_iff s).mp hready
  cases i with
  | nop => cases ht; exact simulates_respond h hready ⟨.ok, 0x00⟩
  | init => exact simulates_init h hready hinv ht
  | update d => exact simulates_update h hready hinv ht
  | updateE =>
    rw [exec_updateE, fin_of_simulates h hidle] at ht
    cases ht
    obtain ⟨m, f⟩ := r
    cases f with
    | true => exact simulates_respond h hready ⟨.errFinalized, 0x00⟩
    | false => exact simulates_respond h hready ⟨.ok, 0x00⟩
  | finalize => exact simulates_finalize h hready hinv ht
  | rddig j =>
    exact simulates_read h hready (exec_rddig_of_fin · j) (exec_rddig_of_not_fin · j) (refExec_rddig h hidle j) ht
  | rdhex j =>
    exact simulates_read h hready (exec_rdhex_of_fin · j) (exec_rdhex_of_not_fin · j) (refExec_rdhex h hidle j) ht
  | rdstat =>
    cases ht
    rw [statusByte_eq_refStatus h hidle]
    exact simulates_respond h hready ⟨.ok, refStatus r⟩
  | mixF | mixG | mixH | ffwd | pad2 => cases hi

/-- Accepting a word is the reference machine's step of it (R111). -/
theorem simulates_accept {r : RefState} {rs : List Response} {s t : State} {w : CmdWord} (h : Simulates r rs s)
    (hready : s.cmdReady = true) (ht : accept w s = .next t) :
    Simulates (refStep r w).1 (rs ++ [(refStep r w).2]) t := by
  have hinv := inv_accept h.inv hready ht
  cases hdec : decodeCmd w with
  | illegal =>
    rw [accept_illegal hdec] at ht
    cases ht
    rw [refStep, hdec]
    exact simulates_respond h hready ⟨.illegal, 0x00⟩
  | command i =>
    rw [accept_command hdec] at ht
    rw [refStep, hdec]
    exact simulates_exec (isCommand_of_decodeCmd hdec) h hready hinv ht

/-! ## The micro-steps -/

/-- In phase FFWD the sums of R181 are the compression of BUF (R184). -/
theorem add_eq_compress {s : State} (h : MixProgress s) (hffwd : s.seq.phase = .ffwd) :
    s.st.add s.sv = compress s.sv (bufBytes s) := by
  rw [h.2 hffwd]
  rfl

/-- A mix step changes nothing that the block's description speaks of. -/
theorem blockInProgress_mixWith {m : List Byte} {s : State} (h : BlockInProgress m s) (hmix : s.seq.phase = .mix)
    (e : RomEntry) : BlockInProgress m (mixWith e s.seq.t s) := by
  obtain ⟨hupd, hfin1, -, hfin2⟩ := h
  refine ⟨fun hc => hupd (by simpa using hc), fun hc _ => hfin1 (by simpa using hc) (by simp [hmix]), fun hp => ?_,
    fun hc => hfin2 (by simpa using hc)⟩
  obtain hm | hf := advanceStep_phase hmix
  · simp [hm] at hp
  · simp [hf] at hp

/-- A busy core that stays busy. -/
theorem simulates_of_busy {r : RefState} {rs : List Response} {s t : State} (h : Simulates r rs s)
    (hbusy : s.seq.phase ≠ .idle) (hinv : Inv t) (hmixing : MixProgress t) (hbusy' : t.seq.phase ≠ .idle)
    (hlen : t.len = s.len) (hctx : t.seq.ctx ≠ .upd ↔ s.seq.ctx ≠ .upd) (hdelivered : t.delivered = s.delivered)
    (hblock : BlockInProgress r.msg t) : Simulates r rs t := by
  obtain ⟨-, hfin, hrs⟩ := h.busy hbusy
  exact ⟨hinv, hmixing, hlen ▸ h.length, fun hidle => absurd hidle hbusy',
    fun _ => ⟨hblock, by simp only [hctx]; exact hfin, hdelivered ▸ hrs⟩⟩

/-- A busy core that finishes its command: the last response of the reference machine is now pending. -/
theorem simulates_finishOk {r : RefState} {rs : List Response} {s : State} (h : Simulates r rs s)
    (hbusy : s.seq.phase ≠ .idle) {q : Quad} {f : Bool} (hmsg : HoldsMessage r (finishOk { s with st := q, fin := f })) :
    Simulates r rs (finishOk { s with st := q, fin := f }) := by
  obtain ⟨-, -, hrs⟩ := h.busy hbusy
  rw [← hrs]
  exact simulates_answered (a := ⟨.ok, 0x00⟩) (inv_finishOk h.inv q f) rfl hmsg rfl rfl

/-- UPDATE's block ends with the chaining value of one block more, and an empty BUF. -/
theorem simulates_ffwd_upd {r : RefState} {rs : List Response} {s : State} (h : Simulates r rs s)
    (hffwd : s.seq.phase = .ffwd) (hctx : s.seq.ctx = .upd) :
    Simulates r rs (finishOk { s with st := s.st.add s.sv }) := by
  have hbusy : s.seq.phase ≠ .idle := by simp [hffwd]
  obtain ⟨⟨hupd, -⟩, hfin, -⟩ := h.busy hbusy
  obtain ⟨hsv, hbuf⟩ := hupd hctx
  obtain ⟨hfill, -⟩ := h.inv.block
  have hmod : r.msg.length % 64 = 0 := by rw [← fill_toNat_of_length h.length, hfill hbusy hctx]; rfl
  have h64 : r.msg.length - (r.msg.length - 64) = 64 := by
    rw [← List.length_drop, ← hbuf, length_bufBytes]
  have hwhole : 64 * (r.msg.length / 64) = r.msg.length := by omega
  have hopen := fin_of_busy h.inv hbusy
  refine simulates_finishOk h hbusy (f := s.fin) (holdsMessage_unfinished h.length (by simpa [hctx] using hfin) hopen ?_ ?_)
  · rw [hmod, hwhole, List.drop_length]
    rfl
  · show s.st.add s.sv = _
    rw [add_eq_compress h.mixing hffwd, hsv, hbuf, hwhole, List.take_length,
      ← chain_append_block (by rw [List.length_take]; omega) (by rw [List.length_drop]; exact h64), List.take_append_drop]

/-- The last padded block ends with the chaining value of the padded message. -/
theorem simulates_ffwd_last {r : RefState} {rs : List Response} {s : State} (h : Simulates r rs s)
    (hffwd : s.seq.phase = .ffwd) (hctx : s.seq.ctx ≠ .upd) {n : Nat} (hn : (pad r.msg).length = 64 * (n + 1))
    (hsv : s.sv = chain iv ((pad r.msg).take (64 * n))) (hbuf : bufBytes s = (pad r.msg).drop (64 * n)) :
    Simulates r rs (finishOk { s with st := s.st.add s.sv, fin := true }) := by
  have hbusy : s.seq.phase ≠ .idle := by simp [hffwd]
  obtain ⟨-, hfin, -⟩ := h.busy hbusy
  refine simulates_finishOk h hbusy (holdsMessage_finalized h.length (by simpa [hctx] using hfin) rfl ?_ ?_)
  · show s.st.add s.sv = _
    rw [add_eq_compress h.mixing hffwd, hsv, hbuf,
      ← chain_append_block (by rw [List.length_take]; omega) (by rw [List.length_drop]; omega), List.take_append_drop]
  · show bufBytes s = _
    rw [hbuf]
    congr 1
    omega

/-- A micro-step keeps the reference machine's state and responses (R151). -/
theorem simulates_internalStep {r : RefState} {rs : List Response} {s t : State} (h : Simulates r rs s)
    (hbusy : s.seq.phase ≠ .idle) (ht : internalStep s = .next t) : Simulates r rs t := by
  have hinv := inv_internalStep h.inv ht
  have hmixing := mixProgress_internalStep h.mixing ht
  have hfill := fill_toNat_of_length h.length
  have hpad := pad_length r.msg
  obtain ⟨hblock, -, -⟩ := h.busy hbusy
  have ⟨_, hfin1, hpad2, hfin2⟩ := hblock
  obtain ⟨-, -, hfill2⟩ := h.inv.block
  rw [blockCount] at hpad
  obtain ⟨e, hmix, -, -, rfl⟩ | ⟨hffwd, hc, h56, rfl⟩ | ⟨hffwd, hc, h56, rfl⟩ | ⟨hffwd, hc, rfl⟩ | ⟨hffwd, hc, rfl⟩ |
    ⟨hp, hc, rfl⟩ := internalStep_cases ht
  · have hbusy' : (mixWith e s.seq.t s).seq.phase ≠ .idle := by
      obtain hm | hf := advanceStep_phase hmix
      · simp [hm]
      · simp [hf]
    exact simulates_of_busy h hbusy hinv hmixing hbusy' rfl (by simp) rfl (blockInProgress_mixWith hblock hmix e)
  · obtain ⟨hsv, hbuf⟩ := hfin1 hc (by simp [hffwd])
    refine simulates_of_busy h hbusy hinv hmixing nofun rfl Iff.rfl rfl ⟨by simp [hc], by simp, fun _ => ?_, by simp [hc]⟩
    show s.st.add s.sv = _
    rw [add_eq_compress h.mixing hffwd, hsv, hbuf, chain_take_succ (by omega), take_pad (by omega)]
  · obtain ⟨hsv, hbuf⟩ := hfin1 hc (by simp [hffwd])
    refine simulates_ffwd_last h hffwd (by simp [hc]) (n := r.msg.length / 64) (by omega) ?_ ?_
    · rw [hsv, take_pad (by omega)]
    · rw [hbuf, List.take_of_length_le (by rw [List.length_drop]; omega)]
  · obtain ⟨hsv, hbuf⟩ := hfin2 hc
    have h56 := hfill2 hbusy hc
    exact simulates_ffwd_last h hffwd (by simp [hc]) (n := r.msg.length / 64 + 1) (by omega) hsv hbuf
  · exact simulates_ffwd_upd h hffwd hc
  · obtain ⟨-, h56, -⟩ := h.inv.block
    refine simulates_of_busy h hbusy hinv hmixing nofun rfl (by simp [hc]) rfl (blockInProgress_fin2 (hpad2 hp) ?_)
    rw [← readBytes_pad2Buf (hfill ▸ h56 hp) s.buf]
    show Memory.readBytes (pad2Buf s.buf s.len) 0 64 = _
    rw [h.length]
    rfl

/-- Settles O51: event by event; only *accept* moves the reference machine, and reset resets it. -/
theorem everyStepKeepsTheSimulation : Obligations.EveryStepKeepsTheSimulation := by
  unfold Obligations.EveryStepKeepsTheSimulation
  intro r rs s t h hstep
  have h' := simulates_afterSample h
  obtain ⟨hreset, rfl⟩ | ⟨hno, hready, w, hw, ht⟩ | ⟨hno, hw, hvalid, rfl⟩ | ⟨hno, hw, -, rfl⟩ | ⟨hno, hw, hbusy, ht⟩ :=
    step_event hstep
  · exact ⟨fun hno => absurd hno hreset, fun _ => simulates_resetCore (afterSample s)⟩
  · refine ⟨fun _ => ?_, fun hreset => absurd hno hreset⟩
    rw [hw]
    exact simulates_accept h' hready ht
  all_goals
    refine ⟨fun _ => ?_, fun hreset => absurd hno hreset⟩
    rw [hw, refResponses, List.append_nil, refAfter]
  · exact simulates_take h' hvalid
  · exact h'
  · exact simulates_internalStep h' hbusy ht

end Sys2Proof.Machine
end

section
/-! PROOFS. Runs from reset (spec 10_state.md R37; 20_memory.md R65; 40_commands.md R111, R112): the simulation along a run,
and what the reference machine does with a list of words. -/
namespace Sys2Proof.Machine
open Sys2Proof.Claims Sys2Proof.Safety

/-! ## The reference machine on lists of words -/

theorem refAfter_append (ws ws' : List CmdWord) : ∀ r, refAfter r (ws ++ ws') = refAfter (refAfter r ws) ws' := by
  induction ws with
  | nil => exact fun r => rfl
  | cons w ws ih => exact fun r => ih (refStep r w).1

theorem refResponses_append (ws ws' : List CmdWord) :
    ∀ r, refResponses r (ws ++ ws') = refResponses r ws ++ refResponses (refAfter r ws) ws' := by
  induction ws with
  | nil => exact fun r => rfl
  | cons w ws ih => exact fun r => congrArg ((refStep r w).2 :: ·) (ih (refStep r w).1)

theorem refStep_of_command {w : CmdWord} {i : Instr} (h : decodeCmd w = .command i) (r : RefState) :
    refStep r w = refExec r i := by
  rw [refStep, h]

theorem decodeCmd_init : decodeCmd 0x1000 = .command .init := decodeCmd_encode (i := .init) rfl

theorem decodeCmd_finalize : decodeCmd 0x3000 = .command .finalize := decodeCmd_encode (i := .finalize) rfl

/-- After INIT, and at reset, the reference machine holds the empty message (R150). -/
theorem refAfter_of_atMessageStart {ws : List CmdWord} (h : AtMessageStart ws) :
    refAfter RefState.reset ws = RefState.reset := by
  obtain rfl | hlast := h
  · rfl
  obtain ⟨ws, rfl⟩ := List.getLast?_eq_some_iff.mp hlast
  rw [refAfter_append, refAfter, refStep_of_command decodeCmd_init]
  rfl

theorem updateBytes_cons_update {w : CmdWord} {d : Byte} (h : decodeCmd w = .command (.update d)) (ws : List CmdWord) :
    updateBytes (w :: ws) = d :: updateBytes ws := by
  simp [updateBytes, h]

theorem updateBytes_cons_updateE {w : CmdWord} (h : decodeCmd w = .command .updateE) (ws : List CmdWord) :
    updateBytes (w :: ws) = updateBytes ws := by
  simp [updateBytes, h]

/-- UPDATE and UPDATE.E append the bytes of the UPDATEs to an unfinished message (R65). -/
theorem refAfter_of_onlyUpdates {ws : List CmdWord} : ∀ {m : List Byte}, OnlyUpdates ws →
    refAfter ⟨m, false⟩ ws = ⟨m ++ updateBytes ws, false⟩ := by
  induction ws with
  | nil => exact fun _ => by simp [refAfter, updateBytes]
  | cons w ws ih =>
    intro m h
    obtain ⟨hw, hws⟩ := List.forall_mem_cons.mp h
    obtain hE | ⟨d, hd⟩ := hw
    · rw [refAfter, refStep_of_command hE, updateBytes_cons_updateE hE]
      exact ih hws
    · rw [refAfter, refStep_of_command hd, updateBytes_cons_update hd, List.append_cons]
      exact ih hws

/-! ## The simulation along a run -/

theorem acceptedWords_succ {k : Nat} {s u : State} (h : step s = .next u) :
    acceptedWords (k + 1) s = acceptedNow s ++ acceptedWords k u := by
  rw [acceptedWords, h]

theorem noReset_of_step {s t : State} (h : NoReset s.inputs) (hstep : step s = .next t) : NoReset t.inputs :=
  forall_inputs_of_step h hstep

/-- Without a reset, a run is the reference machine's run over the words it accepts. -/
theorem simulates_run {k : Nat} : ∀ {s t : State} {r : RefState} {rs : List Response}, NoReset s.inputs →
    Simulates r rs s → RunsTo k s t →
    Simulates (refAfter r (acceptedWords k s)) (rs ++ refResponses r (acceptedWords k s)) t := by
  induction k with
  | zero =>
    intro s t r rs _ h hrun
    obtain rfl := runsTo_zero.mp hrun
    rw [acceptedWords, refResponses, List.append_nil]
    exact h
  | succ k ih =>
    intro s t r rs hno h hrun
    obtain ⟨u, hstep, hrun⟩ := runsTo_succ.mp hrun
    obtain ⟨hu, -⟩ := everyStepKeepsTheSimulation r rs s u h hstep
    rw [acceptedWords_succ hstep, refAfter_append, refResponses_append, ← List.append_assoc]
    exact ih (noReset_of_step hno hstep) (hu (noResetNow_of_noReset hno)) hrun

theorem simulates_of_started {ins : List Pins} {k : Nat} {t : State} (hno : NoReset ins) (hrun : RunsTo k (started ins) t) :
    Simulates (refAfter RefState.reset (acceptedWords k (started ins)))
      (refResponses RefState.reset (acceptedWords k (started ins))) t :=
  simulates_run (rs := []) hno (resetSimulatesTheReference ins) hrun

/-- Settles O52: the simulation holds along the run, and in an idle state it says R37. -/
theorem idleStatesHoldTheMessage : Obligations.IdleStatesHoldTheMessage := by
  unfold Obligations.IdleStatesHoldTheMessage
  intro ins k t hno hrun hidle
  obtain ⟨hmsg, -⟩ := (simulates_of_started hno hrun).idle hidle
  exact hmsg

/-- Settles O53: the same simulation, for the responses. -/
theorem responsesEqualTheReferenceMachine : Obligations.ResponsesEqualTheReferenceMachine := by
  unfold Obligations.ResponsesEqualTheReferenceMachine
  intro ins k t hno hrun hidle
  obtain ⟨-, hrs⟩ := (simulates_of_started hno hrun).idle hidle
  exact hrs

/-- Settles O54: both runs' responses are the reference machine's to the same words. -/
theorem responsesDependOnTheAcceptedWordsOnly : Obligations.ResponsesDependOnTheAcceptedWordsOnly := by
  unfold Obligations.ResponsesDependOnTheAcceptedWordsOnly
  intro ins ins' k k' t t' hno hno' hrun hrun' hidle hidle' hwords
  rw [responsesEqualTheReferenceMachine ins k t hno hrun hidle,
    responsesEqualTheReferenceMachine ins' k' t' hno' hrun' hidle', hwords]

/-- The reference state of a run that ends in a message's UPDATEs. -/
theorem simulates_of_updates {ins : List Pins} {k : Nat} {t : State} {pre ws : List CmdWord} (hno : NoReset ins)
    (hrun : RunsTo k (started ins) t) (hwords : acceptedWords k (started ins) = pre ++ ws) (hpre : AtMessageStart pre)
    (hws : OnlyUpdates ws) : ∃ rs, Simulates ⟨updateBytes ws, false⟩ rs t := by
  have h := simulates_of_started hno hrun
  rw [hwords, refAfter_append, refAfter_of_atMessageStart hpre, RefState.reset, refAfter_of_onlyUpdates hws,
    List.nil_append] at h
  exact ⟨_, h⟩

/-- Settles O55: both cores hold the same unfinished message, which fixes ST, LEN, FIN and BUF below FILL. -/
theorem chunkingDoesNotMatter : Obligations.ChunkingDoesNotMatter := by
  unfold Obligations.ChunkingDoesNotMatter
  intro ins ins' k k' t t' pre pre' ws ws' hno hno' hrun hrun' hidle hidle' hwords hwords' hpre hpre' hws hws' hbytes
  obtain ⟨rs, h⟩ := simulates_of_updates hno hrun hwords hpre hws
  obtain ⟨rs', h'⟩ := simulates_of_updates hno' hrun' hwords' hpre' hws'
  rw [← hbytes] at h'
  have hfin := fin_of_simulates h hidle
  have hfin' := fin_of_simulates h' hidle'
  obtain ⟨hbuf, hst⟩ := open_of_simulates h hidle hfin
  obtain ⟨hbuf', hst'⟩ := open_of_simulates h' hidle' hfin'
  refine ⟨hst.trans hst'.symm, h.length.trans h'.length.symm, hfin.trans hfin'.symm, fun a ha => ?_⟩
  rw [fill_toNat_of_length h.length] at ha
  rw [read_of_readBytes_eq_drop hbuf ha, read_of_readBytes_eq_drop hbuf' ha]

end Sys2Proof.Machine
end

section
/-! PROOFS. The micro-steps of a command (spec 70_reset_and_hazards.md R239, R240): how many a busy core has left, that each
micro-step takes one of them, and what an accepted word starts with. -/
namespace Sys2Proof.Machine
open Sys2Proof.Claims Sys2Proof.Safety

/-! ## The micro-steps left -/

/-- The micro-steps of PAD2 and of the second padded block, for a block after which they follow (R146). -/
def secondBlockSteps (s : State) : Nat := if s.seq.ctx = .fin1 ∧ 56 ≤ s.fill.toNat then 50 else 0

/-- The micro-steps until a busy core answers: the mix steps left and FFWD, and a second padded block where one follows. -/
def microStepsLeft (s : State) : Nat :=
  match s.seq.phase with
  | .idle => 0
  | .mix => 49 - s.seq.t.toNat + secondBlockSteps s
  | .ffwd => 1 + secondBlockSteps s
  | .pad2 => 50

theorem microStepsLeft_idle {s : State} (h : s.seq.phase = .idle) : microStepsLeft s = 0 := by simp [microStepsLeft, h]

theorem microStepsLeft_mix {s : State} (h : s.seq.phase = .mix) :
    microStepsLeft s = 49 - s.seq.t.toNat + secondBlockSteps s := by
  simp [microStepsLeft, h]

theorem microStepsLeft_ffwd {s : State} (h : s.seq.phase = .ffwd) : microStepsLeft s = 1 + secondBlockSteps s := by
  simp [microStepsLeft, h]

theorem microStepsLeft_pad2 {s : State} (h : s.seq.phase = .pad2) : microStepsLeft s = 50 := by simp [microStepsLeft, h]

theorem secondBlockSteps_of_ctx {s : State} (h : s.seq.ctx ≠ .fin1) : secondBlockSteps s = 0 := by
  simp [secondBlockSteps, h]

theorem secondBlockSteps_of_lt {s : State} (h : s.fill.toNat < 56) : secondBlockSteps s = 0 := by
  simp [secondBlockSteps, h]

theorem secondBlockSteps_of_le {s : State} (hctx : s.seq.ctx = .fin1) (h : 56 ≤ s.fill.toNat) : secondBlockSteps s = 50 := by
  simp [secondBlockSteps, hctx, h]

/-- A core that has answered has none left. -/
theorem answered_counts {t : State} {n : Nat} (hidle : t.seq.phase = .idle) (hvalid : t.rsp.valid = true) (hn : n = 0) :
    microStepsLeft t = n ∧ (t.seq.phase = .idle → t.rsp.valid = true) :=
  ⟨(microStepsLeft_idle hidle).trans hn.symm, fun _ => hvalid⟩

/-- A block that starts has 48 mix steps and FFWD before it (R239). -/
theorem blockStart_counts {c : Ctx} {s : State} {n : Nat} (hn : n = 49 + secondBlockSteps (blockStart c s)) :
    microStepsLeft (blockStart c s) = n ∧ ((blockStart c s).seq.phase = .idle → (blockStart c s).rsp.valid = true) :=
  ⟨(microStepsLeft_mix rfl).trans hn.symm, nofun⟩

theorem idle_of_microStepsLeft_eq_zero {s : State} (h : Inv s) (hzero : microStepsLeft s = 0) : s.seq.phase = .idle := by
  obtain ⟨-, ht, -, -⟩ := h.seqReachable
  cases hp : s.seq.phase with
  | idle => rfl
  | mix => rw [microStepsLeft_mix hp] at hzero; omega
  | ffwd => rw [microStepsLeft_ffwd hp] at hzero; omega
  | pad2 => rw [microStepsLeft_pad2 hp] at hzero; omega

/-- A mix step takes one. -/
theorem microStepsLeft_mixWith {s : State} (h : Inv s) (hmix : s.seq.phase = .mix) (e : RomEntry) :
    microStepsLeft s = microStepsLeft (mixWith e s.seq.t s) + 1 := by
  obtain ⟨-, ht, -, -⟩ := h.seqReachable
  have hsecond : secondBlockSteps (mixWith e s.seq.t s) = secondBlockSteps s := by simp [secondBlockSteps]
  rw [microStepsLeft_mix hmix]
  by_cases hlast : s.seq.t.toNat < 47
  · have hseq := mixWith_seq_of_lt hlast hmix e
    rw [microStepsLeft_mix (by rw [hseq]), hsecond, hseq, toNat_add_one_of_lt hlast]
    omega
  · have hseq := mixWith_seq_of_le (Nat.not_lt.mp hlast) e
    rw [microStepsLeft_ffwd (by rw [hseq]), hsecond]
    omega

/-- Every micro-step takes one, and the last one answers (R182, R239). -/
theorem internalStep_counts {s t : State} (h : Inv s) (ht : internalStep s = .next t) :
    microStepsLeft s = microStepsLeft t + 1 ∧ (t.seq.phase = .idle → t.rsp.valid = true) := by
  obtain ⟨e, hmix, -, -, rfl⟩ | ⟨hffwd, hc, h56, rfl⟩ | ⟨hffwd, -, h56, rfl⟩ | ⟨hffwd, hc, rfl⟩ | ⟨hffwd, hc, rfl⟩ |
    ⟨hpad2, -, rfl⟩ := internalStep_cases ht
  · refine ⟨microStepsLeft_mixWith h hmix e, fun hidle => ?_⟩
    obtain hm | hf := advanceStep_phase hmix
    · simp [hm] at hidle
    · simp [hf] at hidle
  · rw [microStepsLeft_ffwd hffwd, secondBlockSteps_of_le hc h56, microStepsLeft_pad2 rfl]
    exact ⟨rfl, nofun⟩
  · rw [microStepsLeft_ffwd hffwd, secondBlockSteps_of_lt h56, microStepsLeft_idle rfl]
    exact ⟨rfl, fun _ => rfl⟩
  · rw [microStepsLeft_ffwd hffwd, secondBlockSteps_of_ctx (by simp [hc]), microStepsLeft_idle rfl]
    exact ⟨rfl, fun _ => rfl⟩
  · rw [microStepsLeft_ffwd hffwd, secondBlockSteps_of_ctx (by simp [hc]), microStepsLeft_idle rfl]
    exact ⟨rfl, fun _ => rfl⟩
  · obtain ⟨hleft, hanswer⟩ := blockStart_counts (c := .fin2) (s := { s with buf := pad2Buf s.buf s.len }) rfl
    rw [microStepsLeft_pad2 hpad2, hleft, secondBlockSteps_of_ctx (by simp)]
    exact ⟨rfl, hanswer⟩

/-! ## What an accepted word starts with -/

theorem microSteps_le (w : CmdWord) (s : State) : microSteps w s ≤ 99 := by
  unfold microSteps
  split
  · split <;> omega
  · split
    · omega
    · split <;> omega
  · omega

/-- The micro-steps of UPDATE (R239). -/
theorem exec_update_counts {d : Byte} {s t : State} (hidle : s.seq.phase = .idle) (ht : exec (.update d) s = .next t) :
    microStepsLeft t = (if s.fin = false ∧ s.fill = 63 then 49 else 0) ∧ (t.seq.phase = .idle → t.rsp.valid = true) := by
  obtain hfin | hfin := Bool.eq_false_or_eq_true s.fin
  · rw [exec_update_of_fin hfin] at ht
    cases ht
    exact answered_counts hidle rfl (if_neg (by simp [hfin]))
  by_cases h63 : s.fill = 63
  · rw [exec_update_of_fill_eq hfin h63] at ht
    cases ht
    refine blockStart_counts ?_
    rw [if_pos ⟨hfin, h63⟩, secondBlockSteps_of_ctx (by simp)]
  · rw [exec_update_of_fill_ne hfin h63] at ht
    cases ht
    exact answered_counts hidle rfl (if_neg fun hc => h63 hc.2)

/-- The micro-steps of FINALIZE (R239). -/
theorem exec_finalize_counts {s t : State} (hidle : s.seq.phase = .idle) (ht : exec .finalize s = .next t) :
    microStepsLeft t = (if s.fin then 0 else if s.fill.toNat ≤ 55 then 49 else 99) ∧
      (t.seq.phase = .idle → t.rsp.valid = true) := by
  obtain hfin | hfin := Bool.eq_false_or_eq_true s.fin
  · rw [exec_finalize_of_fin hfin] at ht
    cases ht
    exact answered_counts hidle rfl (if_pos hfin)
  rw [exec_finalize_of_not_fin hfin] at ht
  cases ht
  refine blockStart_counts ?_
  rw [if_neg (by simp [hfin])]
  by_cases h55 : s.fill.toNat ≤ 55
  · rw [if_pos h55, secondBlockSteps_of_lt (s := blockStart .fin1 (pad1 s)) (Nat.lt_succ_of_le h55)]
  · rw [if_neg h55, secondBlockSteps_of_le (s := blockStart .fin1 (pad1 s)) rfl (Nat.not_le.mp h55)]

/-- The table has micro-steps for UPDATE and FINALIZE only. -/
theorem microSteps_of_other {w : CmdWord} {s : State} (hupdate : ∀ d, decodeCmd w ≠ .command (.update d))
    (hfinalize : decodeCmd w ≠ .command .finalize) : microSteps w s = 0 := by
  unfold microSteps
  split
  next d hd => exact absurd hd (hupdate d)
  next hf => exact absurd hf hfinalize
  next => rfl

/-- Accepting a word leaves exactly the table's micro-steps to make (R239). -/
theorem accept_counts {w : CmdWord} {s t : State} (hidle : s.seq.phase = .idle) (ht : accept w s = .next t) :
    microStepsLeft t = microSteps w s ∧ (t.seq.phase = .idle → t.rsp.valid = true) := by
  by_cases hupdate : ∃ d, decodeCmd w = .command (.update d)
  · obtain ⟨d, hd⟩ := hupdate
    rw [accept_command hd] at ht
    simpa only [microSteps, hd] using exec_update_counts hidle ht
  by_cases hfinalize : decodeCmd w = .command .finalize
  · rw [accept_command hfinalize] at ht
    simpa only [microSteps, hfinalize] using exec_finalize_counts hidle ht
  have hnone := microSteps_of_other (s := s) (not_exists.mp hupdate) hfinalize
  obtain ⟨r, d, he⟩ | ⟨-, he⟩ | ⟨d, hd, -⟩ | ⟨d, hd, -⟩ | ⟨hf, -⟩ := accept_cases w s
  · rw [he] at ht
    cases ht
    exact answered_counts hidle rfl hnone
  · rw [he] at ht
    cases ht
    exact answered_counts hidle rfl hnone
  · exact absurd ⟨d, hd⟩ hupdate
  · exact absurd ⟨d, hd⟩ hupdate
  · exact absurd hf hfinalize

/-! ## The run to the answer -/

/-- A busy core of the invariant makes one of the micro-steps it has left, under every sample without reset. -/
theorem step_busy_counts {s : State} (h : Inv s) (hno : NoResetNow s) (hbusy : s.seq.phase ≠ .idle) :
    ∃ t, step s = .next t ∧ microStepsLeft s = microStepsLeft t + 1 ∧ (t.seq.phase = .idle → t.rsp.valid = true) := by
  have hinv := inv_afterSample h
  obtain ⟨t, ht⟩ := internalStep_total (seqFault_of_inv hinv) hbusy
  have hcount := internalStep_counts hinv ht
  exact ⟨t, (step_busy_of_inv h hbusy hno).trans ht, hcount⟩

/-- After the micro-steps left, and not before, the core has answered. -/
theorem runsTo_answer {n : Nat} : ∀ {s : State}, Inv s → NoReset s.inputs → microStepsLeft s = n →
    (s.seq.phase = .idle → s.rsp.valid = true) →
    (∃ t, RunsTo n s t ∧ t.rsp.valid = true ∧ t.seq.phase = .idle) ∧
      ∀ m u, m < n → RunsTo m s u → u.rsp.valid = false := by
  induction n with
  | zero =>
    intro s h _ hleft hanswer
    have hidle := idle_of_microStepsLeft_eq_zero h hleft
    exact ⟨⟨s, runsTo_zero.mpr rfl, hanswer hidle, hidle⟩, fun m _ hm => absurd hm (Nat.not_lt_zero m)⟩
  | succ n ih =>
    intro s h hno hleft _
    have hbusy : s.seq.phase ≠ .idle := by
      intro hidle
      rw [microStepsLeft_idle hidle] at hleft
      omega
    obtain ⟨t, hstep, hcount, hanswer⟩ := step_busy_counts h (noResetNow_of_noReset hno) hbusy
    obtain ⟨⟨v, hrun, hend⟩, hbefore⟩ :=
      ih (everyStepKeepsTheInvariant s t h hstep) (noReset_of_step hno hstep) (by omega) hanswer
    refine ⟨⟨v, runsTo_succ.mpr ⟨t, hstep, hrun⟩, hend⟩, fun m u hm hu => ?_⟩
    cases m with
    | zero =>
      obtain rfl := runsTo_zero.mp hu
      exact rsp_of_busy h hbusy
    | succ m =>
      obtain ⟨t', hstep', hu⟩ := runsTo_succ.mp hu
      obtain rfl : t = t' := by simpa [hstep] using hstep'
      exact hbefore m u (by omega) hu

/-- Settles O46: the accept leaves the table's micro-steps, and the core answers after them. -/
theorem commandsTakeTheirMicroSteps : Obligations.CommandsTakeTheirMicroSteps := by
  unfold Obligations.CommandsTakeTheirMicroSteps
  intro w s h hready
  obtain ⟨hidle, hrsp⟩ := (cmdReady_iff s).mp hready
  have hinv : Inv (offered s w) := inv_withInputs h _
  obtain ⟨t, ht⟩ := accept_total w (afterSample (offered s w))
  have hstep : step (offered s w) = .next t := (step_accept (s := offered s w) rfl rfl hready rfl).trans ht
  have hno : NoReset t.inputs := by
    rw [step_inputs hstep]
    exact fun p hp => absurd hp List.not_mem_nil
  obtain ⟨hleft, hanswer⟩ := accept_counts (s := afterSample (offered s w)) hidle ht
  obtain ⟨⟨u, hrun, hend⟩, hbefore⟩ := runsTo_answer (everyStepKeepsTheInvariant _ t hinv hstep) hno hleft hanswer
  refine ⟨microSteps_le w s, ⟨u, ?_, hend⟩, fun m u hm hu => ?_⟩
  · rw [Nat.add_comm]
    exact runsTo_succ.mpr ⟨t, hstep, hrun⟩
  · cases m with
    | zero =>
      obtain rfl := runsTo_zero.mp hu
      exact hrsp
    | succ m =>
      obtain ⟨t', hstep', hu⟩ := runsTo_succ.mp hu
      obtain rfl : t = t' := by simpa [hstep] using hstep'
      exact hbefore m u (show m < microSteps w s by omega) hu

end Sys2Proof.Machine
end

section
/-! PROOFS. The program that hashes a message (spec 30_encoding.md R81; 70_reset_and_hazards.md R233): the samples of
`driveWord` accept one word and take its response, and the reference machine's responses to the program. -/
namespace Sys2Proof.Machine
open Sys2Proof.Claims Sys2Proof.Safety

/-! ## One word driven -/

/-- The samples with `rsp_ready` until the core is ready again: the micro-steps left, and *take*. -/
def stepsToReady (s : State) : Nat := if s.cmdReady then 0 else microStepsLeft s + 1

theorem cmdReady_of_stepsToReady {s : State} (h : stepsToReady s = 0) : s.cmdReady = true := by
  by_contra hready
  rw [stepsToReady, if_neg hready] at h
  cases h

/-- A core that is not ready comes nearer with each sample that has only `rsp_ready`. -/
theorem step_ready_sample {s : State} {rest : List Pins} (h : Inv s) (hins : s.inputs = Pins.ready :: rest) :
    ∃ t, step s = .next t ∧ stepsToReady t = stepsToReady s - 1 := by
  have hno : NoResetNow s := (noResetNow_cons hins).mpr rfl
  by_cases hidle : s.seq.phase = .idle
  · obtain hvalid | hvalid := Bool.eq_false_or_eq_true s.rsp.valid
    · refine ⟨_, step_take hins rfl (seqFault_idle hidle) hvalid rfl, ?_⟩
      have hready : (take (afterSample s)).cmdReady = true := (cmdReady_iff _).mpr ⟨hidle, rfl⟩
      rw [stepsToReady, stepsToReady, if_pos hready, cmdReady_of_pending hvalid, microStepsLeft_idle hidle]
      rfl
    · have hready : s.cmdReady = true := (cmdReady_iff s).mpr ⟨hidle, hvalid⟩
      refine ⟨_, step_hold hins rfl hidle (by simp [hvalid]) (fun _ => rfl), ?_⟩
      rw [stepsToReady, stepsToReady, if_pos hready]
      exact if_pos hready
  · obtain ⟨t, hstep, hcount, hanswer⟩ := step_busy_counts h hno hidle
    refine ⟨t, hstep, ?_⟩
    have hnot : t.cmdReady = false := by
      by_cases hidle' : t.seq.phase = .idle
      · exact cmdReady_of_pending (hanswer hidle')
      · exact cmdReady_of_busy hidle'
    rw [stepsToReady, stepsToReady, hnot, cmdReady_of_busy hidle, hcount]
    rfl

theorem acceptedNow_ready_sample {s : State} {rest : List Pins} (hins : s.inputs = Pins.ready :: rest) :
    acceptedNow s = [] := acceptedNow_of_not_valid hins rfl

/-- Enough samples with only `rsp_ready` make the core ready, and accept nothing. -/
theorem runsTo_ready {n : Nat} {rest : List Pins} : ∀ {s : State}, Inv s →
    s.inputs = List.replicate n Pins.ready ++ rest → stepsToReady s ≤ n →
    ∃ t, RunsTo n s t ∧ t.cmdReady = true ∧ t.inputs = rest ∧ acceptedWords n s = [] := by
  induction n with
  | zero =>
    intro s _ hins hle
    exact ⟨s, runsTo_zero.mpr rfl, cmdReady_of_stepsToReady (Nat.le_zero.mp hle), hins, rfl⟩
  | succ n ih =>
    intro s h hins hle
    have hins' : s.inputs = Pins.ready :: (List.replicate n Pins.ready ++ rest) := hins
    obtain ⟨t, hstep, hcount⟩ := step_ready_sample h hins'
    have htail : t.inputs = List.replicate n Pins.ready ++ rest := by rw [step_inputs hstep, hins']; rfl
    obtain ⟨u, hrun, hready, hrest, hwords⟩ := ih (everyStepKeepsTheInvariant s t h hstep) htail (by omega)
    refine ⟨u, runsTo_succ.mpr ⟨t, hstep, hrun⟩, hready, hrest, ?_⟩
    rw [acceptedWords_succ hstep, acceptedNow_ready_sample hins', hwords]
    rfl

/-- The samples of one word accept it, and the core is ready again after them (R240: at most 99 micro-steps). -/
theorem runsTo_driveWord {w : CmdWord} {rest : List Pins} {s : State} (h : Inv s) (hready : s.cmdReady = true)
    (hins : s.inputs = driveWord w ++ rest) :
    ∃ t, RunsTo 101 s t ∧ t.cmdReady = true ∧ t.inputs = rest ∧ acceptedWords 101 s = [w] := by
  obtain ⟨hidle, -⟩ := (cmdReady_iff s).mp hready
  have hins' : s.inputs = Pins.offer w :: (List.replicate 100 Pins.ready ++ rest) := hins
  obtain ⟨t, ht⟩ := accept_total w (afterSample s)
  have hstep : step s = .next t := (step_accept hins' rfl hready rfl).trans ht
  have hword : acceptedNow s = [w] := acceptedNow_of_accept hins' rfl hready rfl
  have htail : t.inputs = List.replicate 100 Pins.ready ++ rest := by rw [step_inputs hstep, hins']; rfl
  obtain ⟨hleft, -⟩ := accept_counts (s := afterSample s) hidle ht
  have hle : stepsToReady t ≤ 100 := by
    have := microSteps_le w (afterSample s)
    rw [stepsToReady]
    split <;> omega
  obtain ⟨u, hrun, hready', hrest, hwords⟩ := runsTo_ready (everyStepKeepsTheInvariant s t h hstep) htail hle
  refine ⟨u, runsTo_succ.mpr ⟨t, hstep, hrun⟩, hready', hrest, ?_⟩
  rw [acceptedWords_succ hstep, hword, hwords]
  rfl

/-! ## A program driven -/

theorem noReset_driveProgram (ws : List CmdWord) : NoReset (driveProgram ws) := by
  induction ws with
  | nil => exact fun p hp => absurd hp List.not_mem_nil
  | cons w ws ih =>
    intro p hp
    rw [driveProgram, driveWord, List.cons_append, List.mem_cons, List.mem_append] at hp
    obtain rfl | hp | hp := hp
    · rfl
    · rw [List.eq_of_mem_replicate hp]
      rfl
    · exact ih p hp

/-- Driving a program runs the reference machine over its words. -/
theorem runsTo_driveProgram {ws : List CmdWord} : ∀ {s : State} {r : RefState} {rs : List Response}, Simulates r rs s →
    s.cmdReady = true → s.inputs = driveProgram ws →
    ∃ t, RunsTo (101 * ws.length) s t ∧ t.cmdReady = true ∧ Simulates (refAfter r ws) (rs ++ refResponses r ws) t := by
  induction ws with
  | nil =>
    intro s r rs h hready _
    rw [refResponses, List.append_nil]
    exact ⟨s, runsTo_zero.mpr rfl, hready, h⟩
  | cons w ws ih =>
    intro s r rs h hready hins
    obtain ⟨t, hrun, hready', hrest, hwords⟩ := runsTo_driveWord h.inv hready hins
    have ht := simulates_run (hins ▸ noReset_driveProgram (w :: ws)) h hrun
    rw [hwords] at ht
    obtain ⟨u, hrun', hready'', hu⟩ := ih ht hready' hrest
    refine ⟨u, ?_, hready'', ?_⟩
    · rw [List.length_cons, Nat.mul_succ, Nat.add_comm]
      exact runsTo_add.mpr ⟨t, hrun, hrun'⟩
    · rw [List.append_assoc, ← refResponses_append, ← refAfter_append] at hu
      exact hu

/-- From reset, a driven program ends with the reference machine's responses delivered (R233). -/
theorem delivered_of_driveProgram (ws : List CmdWord) :
    ∃ t, RunsTo (101 * ws.length) (started (driveProgram ws)) t ∧ t.delivered = refResponses RefState.reset ws := by
  obtain ⟨t, hrun, hready, ht⟩ := runsTo_driveProgram (resetSimulatesTheReference (driveProgram ws)) rfl rfl
  exact ⟨t, hrun, responses_of_ready ht hready⟩

/-! ## The reference machine's responses to the hash program -/

theorem decodeCmd_encode_update (d : Byte) : decodeCmd (encode (.update d)) = .command (.update d) := decodeCmd_encode rfl

theorem onlyUpdates_updateWords (m : List Byte) : OnlyUpdates (updateWords m) := by
  intro w hw
  obtain ⟨d, -, rfl⟩ := List.mem_map.mp hw
  exact .inr ⟨d, decodeCmd_encode_update d⟩

theorem updateBytes_updateWords (m : List Byte) : updateBytes (updateWords m) = m := by
  induction m with
  | nil => rfl
  | cons d m ih => exact (updateBytes_cons_update (decodeCmd_encode_update d) _).trans (congrArg (d :: ·) ih)

theorem refResponses_updateWords (m : List Byte) : ∀ {a : List Byte},
    refResponses ⟨a, false⟩ (updateWords m) = List.replicate m.length ⟨.ok, 0x00⟩ := by
  induction m with
  | nil => exact rfl
  | cons d m ih =>
    intro a
    rw [updateWords, List.map_cons, refResponses, refStep_of_command (decodeCmd_encode_update d)]
    exact congrArg (⟨.ok, 0x00⟩ :: ·) ih

/-- Words that leave the reference machine as it is are answered one by one. -/
theorem refResponses_of_fixed {r : RefState} {ws : List CmdWord} (h : ∀ w ∈ ws, (refStep r w).1 = r) :
    refResponses r ws = ws.map fun w => (refStep r w).2 := by
  induction ws with
  | nil => rfl
  | cons w ws ih =>
    obtain ⟨hw, hws⟩ := List.forall_mem_cons.mp h
    rw [refResponses, hw, ih hws, List.map_cons]

theorem refResponses_init (r : RefState) : refResponses r [0x1000] = [⟨.ok, 0x00⟩] := by
  rw [refResponses, refStep_of_command decodeCmd_init]
  rfl

theorem refResponses_finalize (r : RefState) : refResponses r [0x3000] = [⟨.ok, 0x00⟩] := by
  rw [refResponses, refStep_of_command decodeCmd_finalize]
  rfl

/-- The responses to INIT, the message, FINALIZE and words that only read. -/
theorem refResponses_hashProgram (m : List Byte) {reads : List CmdWord}
    (h : ∀ w ∈ reads, (refStep ⟨m, true⟩ w).1 = ⟨m, true⟩) :
    refResponses RefState.reset ([0x1000] ++ updateWords m ++ [0x3000] ++ reads) =
      List.replicate (m.length + 2) ⟨.ok, 0x00⟩ ++ reads.map fun w => (refStep ⟨m, true⟩ w).2 := by
  have hinit : refAfter RefState.reset [0x1000] = RefState.reset := refAfter_of_atMessageStart (.inr rfl)
  have hmsg : refAfter RefState.reset (updateWords m) = ⟨m, false⟩ := by
    have := refAfter_of_onlyUpdates (m := []) (onlyUpdates_updateWords m)
    rwa [updateBytes_updateWords] at this
  have hfinal : refAfter ⟨m, false⟩ [0x3000] = ⟨m, true⟩ := by
    rw [refAfter, refStep_of_command decodeCmd_finalize]
    rfl
  have hok : List.replicate (m.length + 2) (⟨.ok, 0x00⟩ : Response) =
      [⟨.ok, 0x00⟩] ++ List.replicate m.length ⟨.ok, 0x00⟩ ++ [⟨.ok, 0x00⟩] := by
    rw [List.replicate_succ, List.replicate_succ']
    rfl
  simp only [refResponses_append, refAfter_append, hinit, hmsg, hfinal, hok, refResponses_init, refResponses_finalize,
    refResponses_of_fixed h]
  rw [RefState.reset, refResponses_updateWords]

/-! ## The digest read out -/

theorem map_range_getD {α : Type} (l : List α) (d : α) : (List.range l.length).map (fun j => l.getD j d) = l := by
  refine List.ext_getElem (by simp) fun i _ hi => ?_
  rw [List.getElem_map, List.getElem_range, List.getD_eq_getElem _ _ hi]

theorem refStep_rddig (m : List Byte) (j : BitVec 4) :
    refStep ⟨m, true⟩ (encode (.rddig j)) = (⟨m, true⟩, ⟨.ok, (md4 m).getD j.toNat 0⟩) :=
  refStep_of_command (decodeCmd_encode rfl) _

theorem refStep_rdhex (m : List Byte) (j : BitVec 5) :
    refStep ⟨m, true⟩ (encode (.rdhex j)) = (⟨m, true⟩, ⟨.ok, (md4Hex m).getD j.toNat 0⟩) :=
  refStep_of_command (decodeCmd_encode rfl) _

theorem digestWords_fixed (m : List Byte) : ∀ w ∈ digestWords, (refStep ⟨m, true⟩ w).1 = ⟨m, true⟩ := by
  intro w hw
  obtain ⟨j, -, rfl⟩ := List.mem_map.mp hw
  rw [refStep_rddig]

theorem hexReadWords_fixed (m : List Byte) : ∀ w ∈ hexReadWords, (refStep ⟨m, true⟩ w).1 = ⟨m, true⟩ := by
  intro w hw
  obtain ⟨j, -, rfl⟩ := List.mem_map.mp hw
  rw [refStep_rdhex]

/-- RDDIG 0 to 15 read the digest's 16 bytes in order. -/
theorem digestWords_responses (m : List Byte) :
    (digestWords.map fun w => (refStep ⟨m, true⟩ w).2) = (md4 m).map fun b => ⟨.ok, b⟩ := by
  have hlen : (md4 m).length = 16 := rfl
  rw [← map_range_getD (md4 m) 0, hlen, digestWords, List.map_map, List.map_map]
  refine List.map_congr_left fun j hj => ?_
  have hj : j < 16 := List.mem_range.mp hj
  simp [refStep_rddig, Nat.mod_eq_of_lt hj]

/-- RDHEX 0 to 31 read the digest's 32 characters in order. -/
theorem hexReadWords_responses (m : List Byte) :
    (hexReadWords.map fun w => (refStep ⟨m, true⟩ w).2) = (md4Hex m).map fun b => ⟨.ok, b⟩ := by
  have hlen : (md4Hex m).length = 32 := rfl
  rw [← map_range_getD (md4Hex m) 0, hlen, hexReadWords, List.map_map, List.map_map]
  refine List.map_congr_left fun j hj => ?_
  have hj : j < 32 := List.mem_range.mp hj
  simp [refStep_rdhex, Nat.mod_eq_of_lt hj]

/-- The hash program with any reads: it runs to its end and delivers what the reference machine answers. -/
theorem delivered_of_hashProgram (m : List Byte) {reads : List CmdWord}
    (h : ∀ w ∈ reads, (refStep ⟨m, true⟩ w).1 = ⟨m, true⟩) :
    ∃ t, RunsTo (101 * (m.length + 2 + reads.length))
        (started (driveProgram ([0x1000] ++ updateWords m ++ [0x3000] ++ reads))) t ∧
      t.delivered = List.replicate (m.length + 2) ⟨.ok, 0x00⟩ ++ reads.map fun w => (refStep ⟨m, true⟩ w).2 := by
  have hlen : ([0x1000] ++ updateWords m ++ [0x3000] ++ reads).length = m.length + 2 + reads.length := by
    simp [updateWords]
    omega
  rw [← hlen, ← refResponses_hashProgram m h]
  exact delivered_of_driveProgram _

/-- Settles O56: with RDDIG and with RDHEX for the reads. -/
theorem hashProgramDeliversTheDigest : Obligations.HashProgramDeliversTheDigest := by
  unfold Obligations.HashProgramDeliversTheDigest
  intro m
  constructor
  · rw [← digestWords_responses]
    exact delivered_of_hashProgram m (digestWords_fixed m)
  · rw [← hexReadWords_responses]
    exact delivered_of_hashProgram m (hexReadWords_fixed m)

end Sys2Proof.Machine
end

section
/-! PROOFS. Two cores that look the same to the host (spec 10_state.md R35, R36; 93_implementation_defined.md I2, I3): they
take the same events, and what cannot be seen of ST, SV, BUF and LEN does not show in them. -/
namespace Sys2Proof.Machine
open Sys2Proof.Claims Sys2Proof.Safety

/-! ## The same event in two cores -/

/-- Two cores that look the same to the host take the same event; what each event leaves is left to the hypotheses. -/
theorem step_pair {P Q : State → State → Prop} (hhost : ∀ s s', P s s' → sameToTheHost s s')
    (hafter : ∀ s s', P s s' → P (afterSample s) (afterSample s'))
    (hreset : ∀ s s', P s s' → Q (resetCore s) (resetCore s'))
    (htake : ∀ s s', P s s' → Q (take s) (take s'))
    (haccept : ∀ w s s' t, P s s' → s.cmdReady = true → accept w s = .next t → ∃ t', accept w s' = .next t' ∧ Q t t')
    (hhold : ∀ s s', P s s' → Q s s')
    (hmicro : ∀ s s' t, P s s' → s.seq.phase ≠ .idle → internalStep s = .next t → ∃ t', internalStep s' = .next t' ∧ Q t t')
    {s s' t : State} (h : P s s') (hstep : step s = .next t) : ∃ t', step s' = .next t' ∧ Q t t' := by
  have h' := hafter s s' h
  obtain ⟨-, -, hseq, hrsp, hinputs, -⟩ := hhost s s' h
  have hready' : s'.cmdReady = s.cmdReady := by rw [State.cmdReady, State.cmdReady, hseq, hrsp]
  have hbusyStep : NoResetOrTake s → s.seq.phase ≠ .idle → ∃ t', step s' = .next t' ∧ Q t t' := by
    intro hno hbusy
    rw [step_busy hno hbusy] at hstep
    rw [step_busy (by simpa only [NoResetOrTake, hrsp, hinputs] using hno) (hseq ▸ hbusy)]
    exact hmicro _ _ t h' hbusy hstep
  match hins : s.inputs with
  | [] =>
    refine hbusyStep (by simp [NoResetOrTake, hins]) fun hidle => ?_
    rw [step_nil hins, internalStep_idle hidle] at hstep
    cases hstep
  | p :: rest =>
    have hins' : s'.inputs = p :: rest := hinputs.symm.trans hins
    obtain hrst | hrst := Bool.eq_false_or_eq_true p.rst
    · rw [step_reset hins hrst] at hstep
      cases hstep
      exact ⟨_, step_reset hins' hrst, hreset _ _ h'⟩
    have hfault := seqFault_of_step ((noResetNow_cons hins).mpr hrst) hstep
    by_cases hcan : s.rsp.valid = true ∧ p.rspReady = true
    · obtain ⟨hvalid, hready⟩ := hcan
      rw [step_take hins hrst hfault hvalid hready] at hstep
      cases hstep
      exact ⟨_, step_take hins' hrst (hseq ▸ hfault) (hrsp ▸ hvalid) hready, htake _ _ h'⟩
    have hnoTake : s.rsp.valid = true → p.rspReady = false := by simpa using hcan
    by_cases hoffer : s.cmdReady = true ∧ p.cmdValid = true
    · obtain ⟨hready, hvalid⟩ := hoffer
      rw [step_accept hins hrst hready hvalid] at hstep
      rw [step_accept hins' hrst (hready'.trans hready) hvalid]
      exact haccept _ _ _ t h' hready hstep
    have hnoAccept : s.cmdReady = true → p.cmdValid = false := by simpa using hoffer
    by_cases hidle : s.seq.phase = .idle
    · rw [step_hold hins hrst hidle hnoTake hnoAccept] at hstep
      cases hstep
      exact ⟨_, step_hold hins' hrst (hseq ▸ hidle) (hrsp ▸ hnoTake) (hready' ▸ hnoAccept), hhold _ _ h'⟩
    · refine hbusyStep (fun q hq => ?_) hidle
      rw [hins] at hq
      cases hq
      exact ⟨hrst, hnoTake⟩

/-- STATUS shows FILL and FIN only (R34). -/
theorem statusByte_congr {s s' : State} (hfill : s.fill = s'.fill) (hfin : s.fin = s'.fin) :
    s.statusByte = s'.statusByte := by
  rw [State.statusByte, State.statusByte, hfill, hfin]

/-- What a command does to two cores: the alternatives of `accept_cases`, taken by both. -/
def ExecPair (i : Instr) (s s' : State) : Prop :=
  (∃ r d, exec i s = .next (respond r d s) ∧ exec i s' = .next (respond r d s')) ∨
  (exec i s = .next (respond .ok 0x00 { s with st := iv, len := 0, fin := false }) ∧
    exec i s' = .next (respond .ok 0x00 { s' with st := iv, len := 0, fin := false })) ∨
  (∃ d, s.fin = false ∧ s.fill ≠ 63 ∧ exec i s = .next (respond .ok 0x00 (absorb d s)) ∧
    exec i s' = .next (respond .ok 0x00 (absorb d s'))) ∨
  (∃ d, s.fin = false ∧ s.fill = 63 ∧ exec i s = .next (blockStart .upd (absorb d s)) ∧
    exec i s' = .next (blockStart .upd (absorb d s'))) ∨
  (s.fin = false ∧ exec i s = .next (blockStart .fin1 (pad1 s)) ∧ exec i s' = .next (blockStart .fin1 (pad1 s')))

theorem exec_pair {i : Instr} (hi : i.isCommand = true) {s s' : State} (h : sameToTheHost s s')
    (hst : s.fin = true → s.st = s'.st) : ExecPair i s s' := by
  obtain ⟨hfill, hfin, -, -, -, -⟩ := h
  cases i with
  | nop => exact .inl ⟨_, _, exec_nop s, exec_nop s'⟩
  | init => exact .inr (.inl ⟨exec_init s, exec_init s'⟩)
  | update d =>
    obtain hf | hf := Bool.eq_false_or_eq_true s.fin
    · exact .inl ⟨_, _, exec_update_of_fin hf d, exec_update_of_fin (hfin ▸ hf) d⟩
    by_cases h63 : s.fill = 63
    · exact .inr (.inr (.inr (.inl ⟨d, hf, h63, exec_update_of_fill_eq hf h63 d,
        exec_update_of_fill_eq (hfin ▸ hf) (hfill ▸ h63) d⟩)))
    · exact .inr (.inr (.inl ⟨d, hf, h63, exec_update_of_fill_ne hf h63 d,
        exec_update_of_fill_ne (hfin ▸ hf) (hfill ▸ h63) d⟩))
  | updateE => exact .inl ⟨_, _, exec_updateE s, hfin ▸ exec_updateE s'⟩
  | finalize =>
    obtain hf | hf := Bool.eq_false_or_eq_true s.fin
    · exact .inl ⟨_, _, exec_finalize_of_fin hf, exec_finalize_of_fin (hfin ▸ hf)⟩
    · exact .inr (.inr (.inr (.inr ⟨hf, exec_finalize_of_not_fin hf, exec_finalize_of_not_fin (hfin ▸ hf)⟩)))
  | rddig j =>
    obtain hf | hf := Bool.eq_false_or_eq_true s.fin
    · exact .inl ⟨_, _, exec_rddig_of_fin hf j, hst hf ▸ exec_rddig_of_fin (hfin ▸ hf) j⟩
    · exact .inl ⟨_, _, exec_rddig_of_not_fin hf j, exec_rddig_of_not_fin (hfin ▸ hf) j⟩
  | rdhex j =>
    obtain hf | hf := Bool.eq_false_or_eq_true s.fin
    · exact .inl ⟨_, _, exec_rdhex_of_fin hf j, hst hf ▸ exec_rdhex_of_fin (hfin ▸ hf) j⟩
    · exact .inl ⟨_, _, exec_rdhex_of_not_fin hf j, exec_rdhex_of_not_fin (hfin ▸ hf) j⟩
  | rdstat => exact .inl ⟨_, _, exec_rdstat s, statusByte_congr hfill hfin ▸ exec_rdstat s'⟩
  | mixF | mixG | mixH | ffwd | pad2 => cases hi

/-- What accepting the same word leaves in two cores, from what each alternative leaves. -/
theorem accept_pair {Q : State → State → Prop} {w : CmdWord} {s s' t : State} (h : sameToTheHost s s')
    (hst : s.fin = true → s.st = s'.st) (ht : accept w s = .next t)
    (hanswer : ∀ r d, Q (respond r d s) (respond r d s'))
    (hinit : Q (respond .ok 0x00 { s with st := iv, len := 0, fin := false })
      (respond .ok 0x00 { s' with st := iv, len := 0, fin := false }))
    (habsorb : ∀ d, s.fin = false → s.fill ≠ 63 → Q (respond .ok 0x00 (absorb d s)) (respond .ok 0x00 (absorb d s')))
    (hblock : ∀ d, s.fin = false → s.fill = 63 → Q (blockStart .upd (absorb d s)) (blockStart .upd (absorb d s')))
    (hpad : s.fin = false → Q (blockStart .fin1 (pad1 s)) (blockStart .fin1 (pad1 s'))) :
    ∃ t', accept w s' = .next t' ∧ Q t t' := by
  cases hdec : decodeCmd w with
  | illegal =>
    rw [accept_illegal hdec] at ht
    cases ht
    exact ⟨_, accept_illegal hdec s', hanswer _ _⟩
  | command i =>
    rw [accept_command hdec] at ht ⊢
    obtain ⟨r, d, he, he'⟩ | ⟨he, he'⟩ | ⟨d, hfin, hfill, he, he'⟩ | ⟨d, hfin, hfill, he, he'⟩ | ⟨hfin, he, he'⟩ :=
      exec_pair (isCommand_of_decodeCmd hdec) h hst <;> rw [he] at ht <;> cases ht
    · exact ⟨_, he', hanswer r d⟩
    · exact ⟨_, he', hinit⟩
    · exact ⟨_, he', habsorb d hfin hfill⟩
    · exact ⟨_, he', hblock d hfin hfill⟩
    · exact ⟨_, he', hpad hfin⟩

/-- What the same micro-step leaves in two cores, from what each alternative leaves. -/
theorem internalStep_pair {Q : State → State → Prop} {s s' t : State} (h : sameToTheHost s s')
    (ht : internalStep s = .next t)
    (hmix : ∀ e, s.seq.phase = .mix → rom s.seq.t.toNat = some e → Q (mixWith e s.seq.t s) (mixWith e s.seq.t s'))
    (hsecond : s.seq.phase = .ffwd →
      Q (setPhase .pad2 { s with st := s.st.add s.sv }) (setPhase .pad2 { s' with st := s'.st.add s'.sv }))
    (hlast : s.seq.phase = .ffwd →
      Q (finishOk { s with st := s.st.add s.sv, fin := true }) (finishOk { s' with st := s'.st.add s'.sv, fin := true }))
    (hupd : s.seq.phase = .ffwd →
      Q (finishOk { s with st := s.st.add s.sv }) (finishOk { s' with st := s'.st.add s'.sv }))
    (hpad2 : s.seq.phase = .pad2 →
      Q (blockStart .fin2 { s with buf := pad2Buf s.buf s.len })
        (blockStart .fin2 { s' with buf := pad2Buf s'.buf s'.len })) :
    ∃ t', internalStep s' = .next t' ∧ Q t t' := by
  obtain ⟨hfill, -, hseq, -, -, -⟩ := h
  obtain ⟨e, hp, hc, he, rfl⟩ | ⟨hp, hc, h56, rfl⟩ | ⟨hp, hc, h56, rfl⟩ | ⟨hp, hc, rfl⟩ | ⟨hp, hc, rfl⟩ | ⟨hp, hc, rfl⟩ :=
    internalStep_cases ht
  · refine ⟨_, ?_, hmix e hp he⟩
    rw [hseq] at hp hc he ⊢
    rw [internalStep_mix hp (lt_of_rom he), mixStep_next hc he]
  · refine ⟨_, ?_, hsecond hp⟩
    rw [internalStep_ffwd (hseq ▸ hp), ← hseq, hc]
    exact if_pos (hfill ▸ h56)
  · refine ⟨_, ?_, hlast hp⟩
    rw [internalStep_ffwd (hseq ▸ hp), ← hseq, hc]
    exact if_neg (hfill ▸ Nat.not_le.mpr h56)
  · refine ⟨_, ?_, hlast hp⟩
    rw [internalStep_ffwd (hseq ▸ hp), ← hseq, hc]
    rfl
  · refine ⟨_, ?_, hupd hp⟩
    rw [internalStep_ffwd (hseq ▸ hp), ← hseq, hc]
    rfl
  · refine ⟨_, ?_, hpad2 hp⟩
    rw [internalStep_pad2 (hseq ▸ hp), ← hseq, hc]
    rfl

/-! ## What the host sees -/

/-- FILL after an absorbed byte depends on FILL alone. -/
theorem absorb_fill_congr {s s' : State} (h : s.fill = s'.fill) (d : Byte) : (absorb d s).fill = (absorb d s').fill := by
  apply BitVec.eq_of_toNat_eq
  rw [absorb_fill_toNat, absorb_fill_toNat, h]

theorem accept_sameToTheHost {w : CmdWord} {s s' t : State} (h : sameToTheHost s s') (hst : s.fin = true → s.st = s'.st)
    (ht : accept w s = .next t) : ∃ t', accept w s' = .next t' ∧ sameToTheHost t t' := by
  have ⟨hfill, hfin, hseq, hrsp, hinputs, hdelivered⟩ := h
  exact accept_pair h hst ht (fun _ _ => ⟨hfill, hfin, hseq, rfl, hinputs, hdelivered⟩)
    ⟨rfl, rfl, hseq, rfl, hinputs, hdelivered⟩
    (fun d _ _ => ⟨absorb_fill_congr hfill d, hfin, hseq, rfl, hinputs, hdelivered⟩)
    (fun d _ _ => ⟨absorb_fill_congr hfill d, hfin, rfl, hrsp, hinputs, hdelivered⟩)
    (fun _ => ⟨hfill, hfin, rfl, hrsp, hinputs, hdelivered⟩)

theorem internalStep_sameToTheHost {s s' t : State} (h : sameToTheHost s s') (ht : internalStep s = .next t) :
    ∃ t', internalStep s' = .next t' ∧ sameToTheHost t t' := by
  have ⟨hfill, hfin, hseq, hrsp, hinputs, hdelivered⟩ := h
  have hphase : ∀ p, (⟨s.seq.ctx, p, s.seq.t⟩ : Seq) = ⟨s'.seq.ctx, p, s'.seq.t⟩ := fun p => by rw [hseq]
  exact internalStep_pair h ht
    (fun _ _ _ => ⟨hfill, hfin, congrArg (advanceStep s.seq.t) hseq, hrsp, hinputs, hdelivered⟩)
    (fun _ => ⟨hfill, hfin, hphase .pad2, hrsp, hinputs, hdelivered⟩)
    (fun _ => ⟨hfill, rfl, hphase .idle, rfl, hinputs, hdelivered⟩)
    (fun _ => ⟨hfill, hfin, hphase .idle, rfl, hinputs, hdelivered⟩)
    (fun _ => ⟨hfill, hfin, rfl, hrsp, hinputs, hdelivered⟩)

theorem sameToTheHost_afterSample {s s' : State} (h : sameToTheHost s s') :
    sameToTheHost (afterSample s) (afterSample s') :=
  have ⟨hfill, hfin, hseq, hrsp, hinputs, hdelivered⟩ := h
  ⟨hfill, hfin, hseq, hrsp, congrArg List.tail hinputs, hdelivered⟩

theorem sameToTheHost_resetCore {s s' : State} (h : sameToTheHost s s') : sameToTheHost (resetCore s) (resetCore s') :=
  have ⟨_, _, _, _, hinputs, hdelivered⟩ := h
  ⟨rfl, rfl, rfl, rfl, hinputs, hdelivered⟩

theorem sameToTheHost_take {s s' : State} (h : sameToTheHost s s') : sameToTheHost (take s) (take s') := by
  have ⟨hfill, hfin, hseq, hrsp, hinputs, hdelivered⟩ := h
  refine ⟨hfill, hfin, hseq, ?_, hinputs, ?_⟩
  · rw [take_rsp, take_rsp, hrsp]
  · rw [take_delivered, take_delivered, hrsp, hdelivered]

/-- Two cores that agree on what the host sees, and on ST where FIN = 1. -/
def SameShown (s s' : State) : Prop := sameToTheHost s s' ∧ (s.fin = true → s.st = s'.st)

/-- One step shows nothing of what is hidden (R35). -/
theorem step_sameShown {s s' t : State} (h : SameShown s s') (hstep : step s = .next t) :
    ∃ t', step s' = .next t' ∧ sameToTheHost t t' :=
  step_pair (P := SameShown) (fun _ _ h => h.1) (fun _ _ h => ⟨sameToTheHost_afterSample h.1, h.2⟩)
    (fun _ _ h => sameToTheHost_resetCore h.1) (fun _ _ h => sameToTheHost_take h.1)
    (fun _ _ _ _ h _ ht => accept_sameToTheHost h.1 h.2 ht) (fun _ _ h => h.1)
    (fun _ _ _ h _ ht => internalStep_sameToTheHost h.1 ht) h hstep

/-! ## What can still be read of the message -/

/-- Two cores in which the same can be read, and with FIN = 1 only while idle. -/
def SameReadable (s s' : State) : Prop := sameMessage s s' ∧ (s.fin = true → s.seq.phase = .idle)

/-- Two cores that look the same and hold the same message. -/
def SameHeld (s s' : State) : Prop := sameToTheHost s s' ∧ SameReadable s s'

/-- ST is part of what can be read, with FIN = 1 and with FIN = 0. -/
theorem st_eq_of_sameMessage {s s' : State} (h : sameMessage s s') : s.st = s'.st := by
  obtain hf | hf := Bool.eq_false_or_eq_true s.fin
  · exact h.1 hf
  · exact (h.2 hf).1

/-- All that a block in progress uses. -/
theorem sameMessage_of_block {s s' : State} (hst : s.st = s'.st) (hlen : s.len = s'.len) (hsv : s.sv = s'.sv)
    (hbuf : ∀ a, a < 64 → Memory.read s.buf a = Memory.read s'.buf a) : sameMessage s s' :=
  ⟨fun _ => hst, fun _ => ⟨hst, hlen, fun a ha => hbuf a (ha.trans s.fill.isLt), fun _ => ⟨hsv, hbuf⟩⟩⟩

/-- An idle core uses neither SV nor BUF from FILL on (I2, I3). -/
theorem sameMessage_of_idle {s s' : State} (hidle : s.seq.phase = .idle) (hst : s.st = s'.st) (hlen : s.len = s'.len)
    (hbuf : ∀ a, a < s.fill.toNat → Memory.read s.buf a = Memory.read s'.buf a) : sameMessage s s' :=
  ⟨fun _ => hst, fun _ => ⟨hst, hlen, hbuf, fun hbusy => absurd hidle hbusy⟩⟩

theorem read_absorb_congr {s s' : State} (hlen : s.len = s'.len)
    (hbuf : ∀ a, a < s.fill.toNat → Memory.read s.buf a = Memory.read s'.buf a) (d : Byte) {a : Nat}
    (ha : a ≤ s.fill.toNat) :
    Memory.read (absorb d s).buf a = Memory.read (absorb d s').buf a := by
  rw [fill_toNat] at ha hbuf
  rw [read_absorb, read_absorb, ← hlen]
  by_cases hat : a = s.len.toNat / 8 % 64
  · rw [if_pos hat, if_pos hat]
  · rw [if_neg hat, if_neg hat]
    exact hbuf a (by omega)

theorem read_pad1_congr {s s' : State} (hlen : s.len = s'.len)
    (hbuf : ∀ a, a < s.fill.toNat → Memory.read s.buf a = Memory.read s'.buf a) {a : Nat} (ha : a < 64) :
    Memory.read (pad1 s).buf a = Memory.read (pad1 s').buf a := by
  have hfill : s'.fill = s.fill := by rw [State.fill, State.fill, hlen]
  rw [pad1_buf, pad1_buf, hfill, ← hlen, read_pad1Buf _ _ _ _ s.fill.isLt ha, read_pad1Buf _ _ _ _ s.fill.isLt ha]
  by_cases hmsg : a < s.fill.toNat
  · rw [hbuf a hmsg]
  · rw [if_neg hmsg, if_neg hmsg]

theorem accept_sameReadable {w : CmdWord} {s s' t : State} (h : SameHeld s s') (hready : s.cmdReady = true)
    (ht : accept w s = .next t) : ∃ t', accept w s' = .next t' ∧ SameReadable t t' := by
  obtain ⟨hhost, hmsg, hfinIdle⟩ := h
  obtain ⟨hidle, -⟩ := (cmdReady_iff s).mp hready
  have hst := st_eq_of_sameMessage hmsg
  refine accept_pair (Q := SameReadable) hhost (fun _ => hst) ht (fun _ _ => ⟨hmsg, hfinIdle⟩) ⟨?init, nofun⟩
    (fun d hf h63 => ?absorb) (fun d hf h63 => ?block) (fun hf => ?pad)
  case init =>
    refine sameMessage_of_idle hidle rfl rfl fun a ha => ?_
    simp [State.fill] at ha
  case absorb =>
    obtain ⟨-, hlen, hbuf, -⟩ := hmsg.2 hf
    have hnext : (absorb d s).fill.toNat ≤ s.fill.toNat + 1 := by
      rw [absorb_fill_toNat]
      exact Nat.mod_le _ _
    refine ⟨sameMessage_of_idle hidle hst (congrArg (· + 8) hlen) fun a ha => ?_, fun _ => hidle⟩
    exact read_absorb_congr hlen hbuf d (Nat.le_of_lt_succ (ha.trans_le hnext))
  case block =>
    obtain ⟨-, hlen, hbuf, -⟩ := hmsg.2 hf
    refine ⟨sameMessage_of_block hst (congrArg (· + 8) hlen) hst fun a ha => ?_, fun hf' => by simp [hf] at hf'⟩
    exact read_absorb_congr hlen hbuf d (by rw [h63]; exact Nat.le_of_lt_succ ha)
  case pad =>
    obtain ⟨-, hlen, hbuf, -⟩ := hmsg.2 hf
    exact ⟨sameMessage_of_block hst hlen hst fun a ha => read_pad1_congr hlen hbuf ha, fun hf' => by simp [hf] at hf'⟩

theorem internalStep_sameReadable {s s' t : State} (h : SameHeld s s') (hbusy : s.seq.phase ≠ .idle)
    (ht : internalStep s = .next t) :
    ∃ t', internalStep s' = .next t' ∧ SameReadable t t' := by
  obtain ⟨hhost, hmsg, hfinIdle⟩ := h
  have hf : s.fin = false := by simpa using mt hfinIdle hbusy
  obtain ⟨hst, hlen, hbelow, hblock⟩ := hmsg.2 hf
  obtain ⟨hsv, hbuf⟩ := hblock hbusy
  have hadd : s.st.add s.sv = s'.st.add s'.sv := by rw [hst, hsv]
  refine internalStep_pair (Q := SameReadable) hhost ht (fun e hp he => ?mix) (fun hp => ?second) (fun hp => ?last)
    (fun hp => ?upd) (fun hp => ?pad2)
  case mix =>
    have hk := rom_k_lt he
    have hword : messageWord s.buf e.k = messageWord s'.buf e.k :=
      messageWord_congr fun a _ ha => hbuf a (by omega)
    refine ⟨sameMessage_of_block ?_ hlen hsv hbuf, fun hf' => by simp [hf] at hf'⟩
    rw [mixWith_st, mixWith_st, hst, hword]
  case second => exact ⟨sameMessage_of_block hadd hlen hsv hbuf, fun hf' => by simp [hf] at hf'⟩
  case last => exact ⟨⟨fun _ => hadd, nofun⟩, fun _ => rfl⟩
  case upd => exact ⟨sameMessage_of_idle rfl hadd hlen hbelow, fun _ => rfl⟩
  case pad2 =>
    refine ⟨sameMessage_of_block hst hlen hst fun a ha => ?_, fun hf' => by simp [hf] at hf'⟩
    rw [blockStart_buf, blockStart_buf, read_pad2Buf _ _ _ ha, read_pad2Buf _ _ _ ha, hlen]

theorem exists_next_and {o : Host.Outcome State Fault Refusal} {A B : State → Prop} (hA : ∃ t, o = .next t ∧ A t)
    (hB : ∃ t, o = .next t ∧ B t) : ∃ t, o = .next t ∧ A t ∧ B t := by
  obtain ⟨t, rfl, ha⟩ := hA
  obtain ⟨u, hu, hb⟩ := hB
  cases hu
  exact ⟨t, rfl, ha, hb⟩

theorem sameHeld_resetCore {s s' : State} (h : sameToTheHost s s') : SameHeld (resetCore s) (resetCore s') :=
  ⟨sameToTheHost_resetCore h, sameMessage_of_block rfl rfl rfl fun _ _ => rfl, nofun⟩

/-- Every step keeps the message in two cores that look the same (I2, I3). -/
theorem step_sameHeld {s s' t : State} (h : SameHeld s s') (hstep : step s = .next t) :
    ∃ t', step s' = .next t' ∧ SameHeld t t' :=
  step_pair (P := SameHeld) (fun _ _ h => h.1) (fun _ _ h => ⟨sameToTheHost_afterSample h.1, h.2⟩)
    (fun _ _ h => sameHeld_resetCore h.1) (fun _ _ h => ⟨sameToTheHost_take h.1, h.2⟩)
    (fun _ _ _ _ h hready ht =>
      exists_next_and (accept_sameToTheHost h.1 (fun _ => st_eq_of_sameMessage h.2.1) ht) (accept_sameReadable h hready ht))
    (fun _ _ h => h)
    (fun _ _ _ h hbusy ht =>
      exists_next_and (internalStep_sameToTheHost h.1 ht) (internalStep_sameReadable h hbusy ht))
    h hstep

/-! ## Runs of two cores -/

theorem runsTo_sameHeld {k : Nat} : ∀ {s s' t : State}, SameHeld s s' → RunsTo k s t →
    ∃ t', RunsTo k s' t' ∧ SameHeld t t' := by
  induction k with
  | zero =>
    intro s s' t h hrun
    obtain rfl := runsTo_zero.mp hrun
    exact ⟨s', runsTo_zero.mpr rfl, h⟩
  | succ k ih =>
    intro s s' t h hrun
    obtain ⟨u, hstep, hrun⟩ := runsTo_succ.mp hrun
    obtain ⟨u', hstep', hu⟩ := step_sameHeld h hstep
    obtain ⟨t', hrun', ht⟩ := ih hu hrun
    exact ⟨t', runsTo_succ.mpr ⟨u', hstep', hrun'⟩, ht⟩

/-- Settles O45: step by step. -/
theorem unusedStorageNeverShows : Obligations.UnusedStorageNeverShows := by
  unfold Obligations.UnusedStorageNeverShows
  intro k s s' t hhost hmsg hidle hrun
  obtain ⟨t', hrun', hhost', hmsg', -⟩ := runsTo_sameHeld ⟨hhost, hmsg, hidle⟩ hrun
  exact ⟨t', hrun', hhost', hmsg'⟩

/-- While FIN = 0 a run shows nothing of ST either. -/
theorem runsTo_sameToTheHost {k : Nat} : ∀ {s s' t : State}, sameToTheHost s s' →
    (∀ m u, m < k → RunsTo m s u → u.fin = false) → RunsTo k s t → ∃ t', RunsTo k s' t' ∧ sameToTheHost t t' := by
  induction k with
  | zero =>
    intro s s' t h _ hrun
    obtain rfl := runsTo_zero.mp hrun
    exact ⟨s', runsTo_zero.mpr rfl, h⟩
  | succ k ih =>
    intro s s' t h hopen hrun
    have hfin : s.fin = false := hopen 0 s (Nat.succ_pos k) (runsTo_zero.mpr rfl)
    obtain ⟨u, hstep, hrun⟩ := runsTo_succ.mp hrun
    obtain ⟨u', hstep', hu⟩ := step_sameShown ⟨h, fun hf => by simp [hfin] at hf⟩ hstep
    have hopen' : ∀ m v, m < k → RunsTo m u v → v.fin = false :=
      fun m v hm hv => hopen (m + 1) v (Nat.succ_lt_succ hm) (runsTo_succ.mpr ⟨u, hstep, hv⟩)
    obtain ⟨t', hrun', ht⟩ := ih hu hopen' hrun
    exact ⟨t', runsTo_succ.mpr ⟨u', hstep', hrun'⟩, ht⟩

/-- Settles O44: with FIN = 1 the two cores hold the same message, of which only ST can be read; with FIN = 0 nothing but
what the host sees steers a step. -/
theorem hiddenStateStaysHidden : Obligations.HiddenStateStaysHidden := by
  unfold Obligations.HiddenStateStaysHidden
  intro k s s' t hhost hdone hrun hopen
  obtain hfin | hfin := Bool.eq_false_or_eq_true s.fin
  · obtain ⟨hidle, hst⟩ := hdone hfin
    have hmsg : sameMessage s s' := ⟨fun _ => hst, fun hf => by simp [hfin] at hf⟩
    obtain ⟨t', hrun', hhost', hmsg', -⟩ := runsTo_sameHeld ⟨hhost, hmsg, fun _ => hidle⟩ hrun
    exact ⟨t', hrun', hhost', fun _ _ => st_eq_of_sameMessage hmsg'⟩
  · obtain ⟨t', hrun', hhost'⟩ := runsTo_sameToTheHost hhost (hopen hfin) hrun
    exact ⟨t', hrun', hhost', fun hf => by simp [hfin] at hf⟩

end Sys2Proof.Machine
end

section
/-! PROOFS. The assembler (spec 30_encoding.md R80, R81): the words of the commands with an operand, and the lists of words
of the pseudo-instructions. -/
namespace Sys2Proof.Machine
open Sys2Proof.Claims

/-! ## The words with an operand -/

/-- An operand put below a fixed pattern is OR-ed to it (R80). -/
theorem append_eq_or_ofNat {m n : Nat} (x : BitVec m) {v : Nat} (hv : v < 2 ^ n) :
    x ++ BitVec.ofNat n v = (x ++ 0#n) ||| BitVec.ofNat (m + n) v := by
  apply BitVec.eq_of_toNat_eq
  have hlt : v < 2 ^ (m + n) := hv.trans_le (Nat.pow_le_pow_right (by decide) (Nat.le_add_left n m))
  rw [BitVec.toNat_or, BitVec.toNat_append, BitVec.toNat_append, BitVec.toNat_ofNat, BitVec.toNat_ofNat, BitVec.toNat_ofNat,
    Nat.mod_eq_of_lt hv, Nat.mod_eq_of_lt hlt, Nat.zero_mod, Nat.or_zero]

theorem encode_update_ofNat {d : Nat} (hd : d ≤ 255) : encode (.update (BitVec.ofNat 8 d)) = 0x2100 ||| BitVec.ofNat 16 d :=
  append_eq_or_ofNat (n := 8) 0x21#8 (Nat.lt_succ_of_le hd)

theorem encode_rddig_ofNat {j : Nat} (hj : j ≤ 15) : encode (.rddig (BitVec.ofNat 4 j)) = 0x4000 ||| BitVec.ofNat 16 j :=
  append_eq_or_ofNat (n := 4) 0x400#12 (Nat.lt_succ_of_le hj)

theorem encode_rdhex_ofNat {j : Nat} (hj : j ≤ 31) : encode (.rdhex (BitVec.ofNat 5 j)) = 0x5000 ||| BitVec.ofNat 16 j :=
  append_eq_or_ofNat (n := 5) 0x280#11 (Nat.lt_succ_of_le hj)

theorem asmUpdate_eq (d : Nat) : asmUpdate d = if d ≤ 255 then some (0x2100 ||| BitVec.ofNat 16 d) else none := by
  unfold asmUpdate
  split
  next hd => rw [encode_update_ofNat hd]
  next => rfl

theorem asmRddig_eq (j : Nat) : asmRddig j = if j ≤ 15 then some (0x4000 ||| BitVec.ofNat 16 j) else none := by
  unfold asmRddig
  split
  next hj => rw [encode_rddig_ofNat hj]
  next => rfl

theorem asmRdhex_eq (j : Nat) : asmRdhex j = if j ≤ 31 then some (0x5000 ||| BitVec.ofNat 16 j) else none := by
  unfold asmRdhex
  split
  next hj => rw [encode_rdhex_ofNat hj]
  next => rfl

theorem digestWords_eq : digestWords = (List.range 16).map fun j => 0x4000 ||| BitVec.ofNat 16 j :=
  List.map_congr_left fun _ hj => encode_rddig_ofNat (Nat.le_of_lt_succ (List.mem_range.mp hj))

theorem hexReadWords_eq : hexReadWords = (List.range 32).map fun j => 0x5000 ||| BitVec.ofNat 16 j :=
  List.map_congr_left fun _ hj => encode_rdhex_ofNat (Nat.le_of_lt_succ (List.mem_range.mp hj))

/-! ## Lists of operands -/

theorem mapM_of_forall {α β : Type} {p : α → Prop} [DecidablePred p] (f : α → β) {l : List α} (h : ∀ x ∈ l, p x) :
    l.mapM (fun x => if p x then some (f x) else none) = some (l.map f) := by
  induction l with
  | nil => rfl
  | cons x l ih =>
    obtain ⟨hx, hl⟩ := List.forall_mem_cons.mp h
    rw [List.mapM_cons, ih hl, if_pos hx]
    rfl

theorem mapM_of_not_forall {α β : Type} {p : α → Prop} [DecidablePred p] (f : α → β) {l : List α} (h : ¬∀ x ∈ l, p x) :
    l.mapM (fun x => if p x then some (f x) else none) = none := by
  induction l with
  | nil => exact absurd (fun x hx => absurd hx List.not_mem_nil) h
  | cons x l ih =>
    rw [List.mapM_cons]
    by_cases hx : p x
    · rw [if_pos hx, ih fun hl => h (List.forall_mem_cons.mpr ⟨hx, hl⟩)]
      rfl
    · rw [if_neg hx]
      rfl

/-- A list is read when each of its elements is in range, however that is decided. -/
theorem mapM_ite_some {α β : Type} (p : α → Prop) [DecidablePred p] (f : α → β) (l : List α)
    [Decidable (∀ x ∈ l, p x)] :
    l.mapM (fun x => if p x then some (f x) else none) = if ∀ x ∈ l, p x then some (l.map f) else none := by
  split
  next h => exact mapM_of_forall f h
  next h => exact mapM_of_not_forall f h

/-- Every ASCII character is in the range of a byte (R81). -/
theorem asmChar_eq (c : Char) : (if c.toNat < 128 then asmUpdate c.toNat else none) =
    if c.toNat < 128 then some (0x2100 ||| BitVec.ofNat 16 c.toNat) else none := by
  split
  next hc => rw [asmUpdate_eq, if_pos (by omega)]
  next => rfl

theorem asmText_eq (cs : List Char) :
    asmText cs = if ∀ c ∈ cs, c.toNat < 128 then some (cs.map fun c => 0x2100 ||| BitVec.ofNat 16 c.toNat) else none := by
  rw [asmText, funext asmChar_eq]
  exact mapM_ite_some (fun c : Char => c.toNat < 128) (fun c => 0x2100 ||| BitVec.ofNat 16 c.toNat) cs

/-- Settles O9: each form of a line from the equations of its operands' words. -/
theorem assemblerProducesTheWords : Obligations.AssemblerProducesTheWords := by
  unfold Obligations.AssemblerProducesTheWords
  refine ⟨⟨rfl, rfl, rfl, rfl, rfl⟩, fun d => ?_, fun j => ?_, fun j => ?_, fun w => ?_, rfl, fun bs hbs => ?_,
    fun cs => asmText_eq cs, ?_, ?_, fun cs => ?_⟩
  · rw [assembleOp, asmUpdate_eq]
    split <;> rfl
  · rw [assembleOp, asmRddig_eq]
    split <;> rfl
  · rw [assembleOp, asmRdhex_eq]
    split <;> rfl
  · exact if_congr Nat.lt_succ_iff rfl rfl
  · rw [assembleOp, if_neg (by simpa using hbs), funext asmUpdate_eq, mapM_ite_some]
  · rw [assembleOp, digestWords_eq]
  · rw [assembleOp, hexReadWords_eq]
    rfl
  · rw [assembleOp, asmText_eq, digestWords_eq]
    split <;> rfl

end Sys2Proof.Machine
end
